-- ==== Sys2Proof/Word.lean ====
section
/-! DEFINITION. The two widths of the block (00_scope.md R3: `REG8_BITS`, `REG16_BITS`, `ADDR_BITS`, `DATA_BITS`; R4). -/

namespace Sys2Proof

/-- An 8-bit value: an 8-bit register, a byte on the bus (R3, R4). -/
abbrev Byte := BitVec 8

/-- A 16-bit value: a 16-bit register, an address (R3, R40). -/
abbrev Word := BitVec 16

end Sys2Proof
end

