-- ==== Sys2Proof/Syntax.lean ====
section
/-! DEFINITION. The registers by name and width, the register codes of a postbyte, and the instructions: one constructor per
row of spec/opcode_table.json. -/

namespace Sys2Proof

/-- The 16-bit registers that `get16` and `set16` reach (10_state.md R19). -/
inductive Reg16 where
  | d | x | y | u | s | pc
deriving DecidableEq, Repr

/-- The 8-bit registers that `get8` and `set8` reach (10_state.md R19). -/
inductive Reg8 where
  | a | b | cc | dp
deriving DecidableEq, Repr

/-- A register by name, as `WriteRegister` takes it (60_exceptions.md R138). -/
inductive Reg where
  | wide (r : Reg16)
  | narrow (r : Reg8)
deriving DecidableEq, Repr

/-- What one nibble of a postbyte names (30_encoding.md R62): a 16-bit register, an 8-bit register, or nothing. -/
inductive RegCode where
  | wide (r : Reg16)
  | narrow (r : Reg8)
  /-- A code without a table entry: 6, 7, 12, 13, 14 or 15. -/
  | unlisted (n : BitVec 4)
deriving DecidableEq, Repr

/-- The instructions. Each carries the two codes of its postbyte, valid pair or not (30_encoding.md R61, R67). -/
inductive Instr where
  /-- EXG, Register Exchange (41_exchange_transfer.md R103). -/
  | exg (r0 r1 : RegCode)
  /-- TFR, Register Transfer (41_exchange_transfer.md R104). -/
  | tfr (r0 r1 : RegCode)
deriving DecidableEq, Repr

end Sys2Proof
end

