-- ==== Sys2Proof/WellFormed.lean ====
section
/-! DEFINITION. Which terms of `Instr` stand for an encoding. The one check: a code said to name nothing is one of the six
without a table entry (30_encoding.md R62). An invalid PAIR is well formed: it is a defined instruction (R67). -/

namespace Sys2Proof

/-- The codes that have no entry in the register code table: "nibble values with no table entry, 6,7,12–15" (R62). -/
def unlistedCodes : List (BitVec 4) := [6, 7, 12, 13, 14, 15]

/-- A code is well formed unless it claims that a code of the table names nothing. -/
def RegCode.wf : RegCode → Bool
  | .wide _     => true
  | .narrow _   => true
  | .unlisted n => unlistedCodes.contains n

/-- An instruction is well formed when both codes of its postbyte are. -/
def Instr.wf : Instr → Bool
  | .exg r0 r1 => r0.wf && r1.wf
  | .tfr r0 r1 => r0.wf && r1.wf

end Sys2Proof
end

