-- ==== Sys2Proof/Decode.lean ====
section
/-! DEFINITION. The decoder, total on any bytes and rejecting by name (30_encoding.md R60 to R70), and after it the encoder. -/

namespace Sys2Proof

/-- `OPC_EXG` (R64). PRESUMED, log 4: the byte is the family's (92_eei_decisions.md D2); unsafe. -/
def opcExg : Byte := 0x1E

/-- `OPC_TFR` (R64). PRESUMED, log 4: the byte is the family's (92_eei_decisions.md D2); unsafe. -/
def opcTfr : Byte := 0x1F

/-- `PAGE_PREFIXES` (R65). PRESUMED, log 4: the bytes are the family's (92_eei_decisions.md D3); safe. -/
def pagePrefixes : List Byte := [0x10, 0x11]

/-- The handlers of this block (40_dispatch.md R83). -/
inductive Handler where
  | exg | tfr
deriving DecidableEq, Repr

/-- What Decode selects from the opcode byte (40_dispatch.md R83). -/
inductive Selection where
  /-- The handler of EXG or TFR. -/
  | handler (h : Handler)
  /-- A page prefix: a second opcode byte follows (R89). -/
  | page
  /-- The default arm (R90). -/
  | outOfSlice
deriving DecidableEq, Repr

/-- Why bytes decode to no instruction. -/
inductive DecodeReject where
  /-- No byte at all. -/
  | noOpcode
  /-- EXG or TFR without its postbyte. -/
  | noPostbyte (opc : Byte)
  /-- A page prefix: its second-stage table has no entry (R65, R89). -/
  | pagePrefix (opc : Byte)
  /-- An opcode this spec has no handler for (R66). -/
  | outOfSlice (opc : Byte)
deriving DecidableEq, Repr

/-- Decode: "The selection depends on the opcode byte only, never on any register or flag" (40_dispatch.md R83). -/
def select (opc : Byte) : Selection :=
  if opc = opcExg then .handler .exg
  else if opc = opcTfr then .handler .tfr
  else if pagePrefixes.contains opc then .page
  else .outOfSlice

/-- The register code table (R62). -/
def decodeCode (n : BitVec 4) : RegCode :=
  match n.toNat with
  | 0  => .wide .d
  | 1  => .wide .x
  | 2  => .wide .y
  | 3  => .wide .u
  | 4  => .wide .s
  | 5  => .wide .pc
  | 8  => .narrow .a
  | 9  => .narrow .b
  | 10 => .narrow .cc
  | 11 => .narrow .dp
  | _  => .unlisted n

/-- `width(c)` of R63: 16, 8, or none for a code without a table entry. -/
def RegCode.width : RegCode → Option Nat
  | .wide _     => some 16
  | .narrow _   => some 8
  | .unlisted _ => none

/-- The validity predicate of R63, the same for EXG and TFR: both widths exist and are equal. -/
def validPair (r0 r1 : RegCode) : Bool := r0.width.isSome && r0.width == r1.width

/-- `pb[7:4]`, the first register's code (R61). -/
def highNibble (pb : Byte) : BitVec 4 := pb.extractLsb' 4 4

/-- `pb[3:0]`, the second register's code (R61). -/
def lowNibble (pb : Byte) : BitVec 4 := pb.extractLsb' 0 4

/-- The instruction a handler reads from its postbyte (format PB, R61). -/
def Handler.instr (h : Handler) (pb : Byte) : Instr :=
  match h with
  | .exg => .exg (decodeCode (highNibble pb)) (decodeCode (lowNibble pb))
  | .tfr => .tfr (decodeCode (highNibble pb)) (decodeCode (lowNibble pb))

/-- Decode the instruction at the front of a list of bytes and give the rest (R60, R69). -/
def decode : List Byte → Except DecodeReject (Instr × List Byte)
  | [] => .error .noOpcode
  | opc :: rest =>
    match select opc with
    | .handler h =>
      match rest with
      | []          => .error (.noPostbyte opc)
      | pb :: rest' => .ok (h.instr pb, rest')
    | .page       => .error (.pagePrefix opc)
    | .outOfSlice => .error (.outOfSlice opc)

/-- The code of a register name (R62), and the nibble itself where it names nothing. -/
def encodeCode : RegCode → BitVec 4
  | .wide .d    => 0
  | .wide .x    => 1
  | .wide .y    => 2
  | .wide .u    => 3
  | .wide .s    => 4
  | .wide .pc   => 5
  | .narrow .a  => 8
  | .narrow .b  => 9
  | .narrow .cc => 10
  | .narrow .dp => 11
  | .unlisted n => n

/-- The postbyte `16 * code(r0) + code(r1)` (R70): the first code is the high nibble. -/
def postbyte (r0 r1 : RegCode) : Byte := encodeCode r0 ++ encodeCode r1

/-- The bytes of an instruction in fetch order (R61, R70). -/
def encode : Instr → List Byte
  | .exg r0 r1 => [opcExg, postbyte r0 r1]
  | .tfr r0 r1 => [opcTfr, postbyte r0 r1]

/-- The bytes of an opcode-table word in fetch order, zeros after them. The table holds an instruction as one 16-bit number
whose bits 15:8 are byte 0 and bits 7:0 byte 1 (R61); a word of one byte is byte 0 itself. DEDUCED, log 11; safe. -/
def tableBytes (nbits w : Nat) : List Byte :=
  if nbits ≤ 8 then [BitVec.ofNat 8 (w % 2 ^ nbits), 0]
  else
    let v := w % 2 ^ nbits % 65536
    [BitVec.ofNat 8 (v / 256), BitVec.ofNat 8 v]

/-- The instruction this decoder reads from an opcode-table word, none where it refuses. -/
def decodeTableWord (nbits w : Nat) : Option Instr :=
  match decode (tableBytes nbits w) with
  | .ok (i, _) => some i
  | .error _   => none

/-- A register's assembler name (R70). -/
def RegCode.spelling : RegCode → Option String
  | .wide .d    => some "D"
  | .wide .x    => some "X"
  | .wide .y    => some "Y"
  | .wide .u    => some "U"
  | .wide .s    => some "S"
  | .wide .pc   => some "PC"
  | .narrow .a  => some "A"
  | .narrow .b  => some "B"
  | .narrow .cc => some "CC"
  | .narrow .dp => some "DP"
  | .unlisted _ => none

/-- A valid pair's assembler spelling, first register first; an invalid one has none (R70). -/
def pairSpelling (mnemonic : String) (r0 r1 : RegCode) : Option String :=
  if validPair r0 r1 then
    r0.spelling.bind fun p => r1.spelling.map fun q => mnemonic ++ " " ++ p ++ "," ++ q
  else none

/-- An instruction's assembler spelling (R70). PRESUMED, log 4: notation only (92_eei_decisions.md D23); safe. -/
def Instr.spelling : Instr → Option String
  | .exg r0 r1 => pairSpelling "EXG" r0 r1
  | .tfr r0 r1 => pairSpelling "TFR" r0 r1

end Sys2Proof
end

