-- ==== Sys2Proof/Config.lean ====
section
/-! DEFINITION. What an implementation fixes (00_scope.md R3, the open parameters) and the one free value. -/

namespace Sys2Proof

/-- `RESET_REGS`: the value each register but PC takes at `ColdReset` (R3, R29). -/
structure ResetRegs where
  A  : Byte
  B  : Byte
  X  : Word
  Y  : Word
  U  : Word
  S  : Word
  DP : Byte
  CC : Byte
deriving DecidableEq, Repr

/-- The open parameters of R3 that the block itself reads. They are arguments of the model, fixed for one instance: no
step changes them, and a statement over all states holds for every value of them. DESIGN CHOICE, log 3; safe. -/
structure Params where
  /-- `LEDGER_BITS`, a positive integer (R20, R21). -/
  ledgerBits : Nat
  /-- `RESET_REGS` (R29). -/
  resetRegs : ResetRegs
  /-- `RESET_PC` (R29, R161). -/
  resetPc : Word
  /-- `DEBUG_PRESENT` (60_exceptions.md R143). -/
  debugPresent : Bool
deriving DecidableEq, Repr

/-- The default of `RESET_REGS`: all zero (R3, R29). DESIGN CHOICE, log 3; unsafe where a claim rests on it. -/
def ResetRegs.default : ResetRegs :=
  { A := 0, B := 0, X := 0, Y := 0, U := 0, S := 0, DP := 0, CC := 0 }

/-- R3's default of every open parameter. DESIGN CHOICE, log 3; unsafe where a claim rests on it. -/
def Params.default : Params :=
  { ledgerBits := 64, resetRegs := ResetRegs.default, resetPc := 0, debugPresent := true }

/-- What a byte of memory that nothing has written reads as (`RESET_MEM`, open in R3; the vectors of 95_test_vectors.md
use 0x00). DESIGN CHOICE, log 7; unsafe where a claim rests on it. -/
def Config.unlistedByte : Byte := 0

/-- `UNMAPPED_READ`: the byte the environment answers where it maps no memory, one draw per read under no law
(20_memory.md R44; 93_implementation_defined.md U2). It has no body: it is applied to `State.draws`. DESIGN CHOICE, log 8;
safe. -/
opaque Config.unmappedRead : Nat → Byte

end Sys2Proof
end

