-- ==== Sys2Proof/Machine/State.lean ====
section
/-! DEFINITION. The state of the block as plain data (10_state.md), the host's events (00_scope.md R2), what the outside
observes (00_scope.md R7), and the state after reset. -/

namespace Sys2Proof.Machine

/-- Memory: address and byte pairs in one canonical form (`Memory.wf`). -/
abbrev Memory := List Host.Cell

/-- Addresses strictly rising, each in the address space of R40, and no entry equal to what an unlisted address reads as. -/
abbrev Memory.wf (m : Memory) : Prop :=
  m.Pairwise (fun p q => p.1 < q.1) ∧ ∀ c ∈ m, c.1 < 65536 ∧ c.2 ≠ Config.unlistedByte

/-- The breakpoint set BP (10_state.md R22) in one canonical form (`Breakpoints.wf`). -/
abbrev Breakpoints := List Word

/-- Addresses strictly rising: each is in the set once or not at all (R22). -/
abbrev Breakpoints.wf (b : Breakpoints) : Prop := b.Pairwise (fun p q => p.toNat < q.toNat)

/-- A range of addresses, both ends included. -/
structure AddrRange where
  first : Word
  last  : Word
deriving DecidableEq, Repr

/-- The register snapshot of `ReadRegisters` (60_exceptions.md R137). -/
structure Snapshot where
  A  : Byte
  B  : Byte
  X  : Word
  Y  : Word
  U  : Word
  S  : Word
  PC : Word
  DP : Byte
  CC : Byte
deriving DecidableEq, Repr

/-- The debug commands at the level of R134. -/
inductive Command where
  | setBreakpoint (a : Word)
  | clearBreakpoint (a : Word)
  /-- `Step` (R131). -/
  | singleStep
  /-- `Continue` (R130). -/
  | continueRun
  | readRegisters
  /-- `v` may be wider than the register (R138). -/
  | writeRegister (r : Reg) (v : Nat)
  | readMemory (a : Word) (n : Nat)
  | writeMemory (a : Word) (bytes : List Byte)
  /-- A command with an unknown register name, or an argument the shapes of R134 do not admit (R142). -/
  | malformed
deriving DecidableEq, Repr

/-- The events the host raises (00_scope.md R2). -/
inductive Event where
  /-- `EngineStep` (40_dispatch.md R80); `signal` says that a `HaltSignal` arrives during it (R88, R126). -/
  | engineStep (signal : Bool)
  | coldReset
  | haltSignal
  | command (c : Command)
  | ledgerRead
  | ledgerReset
deriving DecidableEq, Repr

/-- The result of one `EngineStep` (40_dispatch.md R87). -/
inductive EngineResult where
  | running | halted
deriving DecidableEq, Repr

/-- What a command answers (R134, R137, R139, R141, R142). -/
inductive Reply where
  /-- An error acknowledgment (R134, R142). -/
  | error
  /-- State unchanged. -/
  | unchanged
  /-- State unchanged, with the register snapshot (R137). -/
  | registers (r : Snapshot)
  /-- State unchanged, with the bytes read (R139). -/
  | bytes (bs : List Byte)
  /-- Transition to Running. -/
  | toRunning
  /-- Transition confirmed Halted. -/
  | confirmedHalted
deriving DecidableEq, Repr

/-- One thing an agent outside the block observes (00_scope.md R7). -/
inductive Observation where
  | busRead (a : Word) (v : Byte)
  | busWrite (a : Word) (v : Byte)
  | result (r : EngineResult)
  | ledger (n : Nat)
  | reply (r : Reply)
deriving DecidableEq, Repr

/-- The state. The first fifteen fields but D are the table of 10_state.md section 1 (D is a view of A and B: `getD`);
then come the bus environment and the open parameters, arguments of the step in the spec; then the model's own fields. -/
structure State where
  /-- Accumulator A (R10). -/
  A  : Byte
  /-- Accumulator B (R10). -/
  B  : Byte
  /-- Index X (R12). -/
  X  : Word
  /-- Index Y (R12). -/
  Y  : Word
  /-- User stack pointer U (R12). -/
  U  : Word
  /-- System stack pointer S (R13). -/
  S  : Word
  /-- Program counter (R14). -/
  PC : Word
  /-- Direct page register (R15). -/
  DP : Byte
  /-- Condition code register (R16). -/
  CC : Byte
  /-- LEDGER (R20), a counter modulo 2^`LEDGER_BITS` (R21). -/
  ledger : Nat
  /-- BP (R22). -/
  bp : Breakpoints
  /-- The controller is Halted (R23). -/
  halted : Bool
  /-- The single-step latch (R24). -/
  stepPending : Bool
  /-- The halt request latch (R25). -/
  haltReq : Bool
  /-- The memory behind the bus (20_memory.md R40, R57). -/
  mem : Memory
  /-- A responder is bound to the bus read port (20_memory.md R43). -/
  readBound : Bool
  /-- A responder is bound to the bus write port (20_memory.md R43). -/
  writeBound : Bool
  /-- Where the environment maps no memory and answers a read freely (20_memory.md R41, R44). Log 8. -/
  unmapped : List AddrRange
  /-- The open parameters (00_scope.md R3). Log 3. -/
  params : Params
  /-- The model's own: how many free bytes the environment has given. Log 8. -/
  draws : Nat
  /-- The model's own: the host's events still to come, the next one first. Log 1. -/
  script : List Event
  /-- The model's own: what has been observed from outside, the newest first. Log 2. -/
  trace : List Observation
deriving DecidableEq, Repr

/-- Faults: none. "The block raises no synchronous exception. The set of exception causes is empty" (60_exceptions.md R120),
and "The bus never reports an error to the block" (20_memory.md R45). -/
inductive Fault where
deriving DecidableEq, Repr

/-- Why the model gives a step no meaning. -/
inductive Refusal where
  /-- Raised by exec for an instruction that has no meaning yet. Safe: nothing is proved about it. -/
  | notModelled (mnemonic : String)
  /-- `refuse(OutOfSlice)`: raised by the engine for a first byte that is no opcode of the block (40_dispatch.md R90). Safe. -/
  | outOfSlice (opc : Byte)
  /-- `refuse(OutOfSlice)` behind a page prefix, after the second fetch: raised by the engine (40_dispatch.md R89). Safe. -/
  | pagePrefix (opc opc2 : Byte)
deriving DecidableEq, Repr

/-- The machine right after `ColdReset` (10_state.md R29, R30) with R3's default parameters, in the reference environment of
20_memory.md R57 with both ports bound (70_reset_and_hazards.md R164), nothing in memory, and the host's list empty.
DESIGN CHOICE, logs 1, 2, 3, 7, 8, 10. -/
def State.reset : State :=
  { A := ResetRegs.default.A, B := ResetRegs.default.B, X := ResetRegs.default.X, Y := ResetRegs.default.Y,
    U := ResetRegs.default.U, S := ResetRegs.default.S, PC := Params.default.resetPc,
    DP := ResetRegs.default.DP, CC := ResetRegs.default.CC,
    ledger := 0, bp := [], halted := false, stepPending := false, haltReq := false,
    mem := [], readBound := true, writeBound := true, unmapped := [], params := Params.default,
    draws := 0, script := [], trace := [] }

end Sys2Proof.Machine
end

