-- ==== Sys2Proof/Machine/Ops.lean ====
section
/-! DEFINITION. The shared operations: memory, the breakpoint set, the bus ports, fetching a byte, charging the Ledger, and
the halt, which is the block's one trap-like event. -/

namespace Sys2Proof.Machine

/-- The byte at an address. -/
def Memory.read : Memory → Nat → Byte
  | [], _          => Config.unlistedByte
  | (k, v) :: m, a => if k = a then v else Memory.read m a

/-- Store a byte, keeping the canonical form: storing what an unlisted address reads as removes the entry. -/
def Memory.write : Memory → Nat → Byte → Memory
  | [], a, v => if v = Config.unlistedByte then [] else [(a, v)]
  | (k, w) :: m, a, v =>
    if k < a then (k, w) :: Memory.write m a v
    else if k = a then (if v = Config.unlistedByte then m else (a, v) :: m)
    else if v = Config.unlistedByte then (k, w) :: m else (a, v) :: (k, w) :: m

/-- `BP ∪ {a}` (60_exceptions.md R135). -/
def Breakpoints.insert : Breakpoints → Word → Breakpoints
  | [], a => [a]
  | b :: bs, a =>
    if b.toNat < a.toNat then b :: Breakpoints.insert bs a
    else if b = a then b :: bs
    else a :: b :: bs

/-- `BP \ {a}` (60_exceptions.md R136). -/
def Breakpoints.remove (bs : Breakpoints) (a : Word) : Breakpoints := bs.filter (fun b => b != a)

/-- Record one observation (00_scope.md R7). -/
def State.observe (o : Observation) (s : State) : State := { s with trace := o :: s.trace }

/-- The register snapshot (60_exceptions.md R137). -/
def State.snapshot (s : State) : Snapshot :=
  { A := s.A, B := s.B, X := s.X, Y := s.Y, U := s.U, S := s.S, PC := s.PC, DP := s.DP, CC := s.CC }

/-- An address lies in a range. -/
def AddrRange.holds (r : AddrRange) (a : Word) : Bool := r.first.toNat ≤ a.toNat && a.toNat ≤ r.last.toNat

/-- The environment maps no memory at this address (20_memory.md R44). -/
def State.isUnmapped (s : State) (a : Word) : Bool := s.unmapped.any (fun r => r.holds a)

/-- `MemRead(a, 1)`, one transaction on the bus read port (20_memory.md R41): the byte at `a`; where nothing is mapped, the
next free byte (R44). On an unbound port it gives 0x00 and changes nothing (R43), the trace included: log 10. -/
def busRead (a : Word) (s : State) : Byte × State :=
  if s.readBound then
    if s.isUnmapped a then
      let v := Config.unmappedRead s.draws
      (v, { s with draws := s.draws + 1 }.observe (.busRead a v))
    else
      let v := Memory.read s.mem a.toNat
      (v, s.observe (.busRead a v))
  else (0, s)

/-- `MemWrite(a, 1, v)`, one transaction on the bus write port (20_memory.md R42). Where nothing is mapped memory keeps its
contents (log 9); on an unbound port nothing happens at all (R43). -/
def busWrite (a : Word) (v : Byte) (s : State) : State :=
  if s.writeBound then
    if s.isUnmapped a then s.observe (.busWrite a v)
    else { s with mem := Memory.write s.mem a.toNat v }.observe (.busWrite a v)
  else s

/-- Read the byte at PC, then `PC <- (PC + 1) mod 65536` (40_dispatch.md R82, R84; 41_exchange_transfer.md R100). -/
def fetchByte (s : State) : Byte × State :=
  let r := busRead s.PC s
  (r.1, { r.2 with PC := r.2.PC + 1 })

/-- Account: `LEDGER <- (LEDGER + n) mod 2^LEDGER_BITS` (10_state.md R21; 40_dispatch.md R85). -/
def account (n : Nat) (s : State) : State := { s with ledger := (s.ledger + n) % 2 ^ s.params.ledgerBits }

/-- Go to Halted: "sets `halted <- 1`, `step_pending <- 0`, `halt_req <- 0` and nothing else" (60_exceptions.md R128). A
latched `HaltSignal` is answered here, "once the halt has happened" (R134): log 13. -/
def goHalted (s : State) : State :=
  let t := { s with halted := true, stepPending := false, haltReq := false }
  if s.haltReq then t.observe (.reply .confirmedHalted) else t

/-- Return from Halted, by `Continue` or `Step` (60_exceptions.md R130, R131). -/
def goRunning (step : Bool) (s : State) : State := { s with halted := false, stepPending := step }

/-- Entry: a latched halt request is honoured before anything is fetched (40_dispatch.md R81). -/
def entry (s : State) : State := if !s.halted && s.haltReq then goHalted s else s

/-- A halt condition of the Boundary Check holds: breakpoint, step or halt request, one OR (40_dispatch.md R86;
60_exceptions.md R124 to R127). -/
def haltCondition (s : State) : Bool := s.bp.contains s.PC || s.stepPending || s.haltReq

/-- The names of the three reasons to halt (60_exceptions.md R123). -/
inductive HaltCause where
  | breakpoint | step | signal
deriving DecidableEq, Repr

/-- The reasons that hold before the Boundary Check: "A model that reports a cause computes it from the state before the
Boundary Check and does not store it" (60_exceptions.md R123). -/
def haltCauses (s : State) : List HaltCause :=
  (if s.bp.contains s.PC then [.breakpoint] else []) ++ (if s.stepPending then [.step] else [])
    ++ (if s.haltReq then [.signal] else [])

/-- Boundary Check (40_dispatch.md R86). -/
def boundaryCheck (s : State) : State := if haltCondition s then goHalted s else s

/-- Return: report whether the controller is now Halted (40_dispatch.md R87). -/
def returnResult (s : State) : State := s.observe (.result (if s.halted then .halted else .running))

end Sys2Proof.Machine
end

