-- ==== Sys2Proof/Machine/Operands.lean ====
section
/-! DEFINITION. The Register File's accessors (10_state.md R10 to R19) and the operand forms of EXG and TFR
(41_exchange_transfer.md R101, R102; 30_encoding.md R62, R63). -/

namespace Sys2Proof.Machine

/-- `a : b`, the first byte in the high bits (00_scope.md R4). -/
def concat (hi lo : Byte) : Word := hi ++ lo

/-- `v[15:8]`. -/
def highByte (v : Word) : Byte := v.extractLsb' 8 8

/-- `v[7:0]`. -/
def lowByte (v : Word) : Byte := v.extractLsb' 0 8

/-- D, the view A : B (R11). -/
def getD (s : State) : Word := concat s.A s.B

/-- Write D: `A <- v[15:8]` and `B <- v[7:0]` (R11). -/
def setD (v : Word) (s : State) : State := { s with A := highByte v, B := lowByte v }

/-- `get8` (R19). -/
def get8 (r : Reg8) (s : State) : Byte :=
  match r with
  | .a  => s.A
  | .b  => s.B
  | .cc => s.CC
  | .dp => s.DP

/-- `set8` (R19). -/
def set8 (r : Reg8) (v : Byte) (s : State) : State :=
  match r with
  | .a  => { s with A := v }
  | .b  => { s with B := v }
  | .cc => { s with CC := v }
  | .dp => { s with DP := v }

/-- `get16` (R19). -/
def get16 (r : Reg16) (s : State) : Word :=
  match r with
  | .d  => getD s
  | .x  => s.X
  | .y  => s.Y
  | .u  => s.U
  | .s  => s.S
  | .pc => s.PC

/-- `set16` (R19). -/
def set16 (r : Reg16) (v : Word) (s : State) : State :=
  match r with
  | .d  => setD v s
  | .x  => { s with X := v }
  | .y  => { s with Y := v }
  | .u  => { s with U := v }
  | .s  => { s with S := v }
  | .pc => { s with PC := v }

/-- `r <- v` for a value of any size: "`v` is first reduced modulo 2^width of `r`" (00_scope.md R5; 10_state.md R17). -/
def writeReg (r : Reg) (v : Nat) (s : State) : State :=
  match r with
  | .wide r   => set16 r (BitVec.ofNat 16 v) s
  | .narrow r => set8 r (BitVec.ofNat 8 v) s

/-- The current value of a register, an unsigned integer (00_scope.md R4, R5). -/
def readReg (r : Reg) (s : State) : Nat :=
  match r with
  | .wide r   => (get16 r s).toNat
  | .narrow r => (get8 r s).toNat

/-- The operands a postbyte gives: two registers of one width, or an invalid pair (30_encoding.md R63). -/
inductive OperandPair where
  | wide (p q : Reg16)
  | narrow (p q : Reg8)
  | invalid
deriving DecidableEq, Repr

/-- Sort a pair of codes by width (30_encoding.md R63). -/
def operands (r0 r1 : RegCode) : OperandPair :=
  match r0, r1 with
  | .wide p, .wide q     => .wide p q
  | .narrow p, .narrow q => .narrow p q
  | _, _                 => .invalid

end Sys2Proof.Machine
end

