-- ==== Sys2Proof/Machine/Flags.lean ====
section
/-! DEFINITION. The flags of CC (10_state.md R16). No rule of the block computes, sets or reads a single flag: CC moves as a
whole byte (41_exchange_transfer.md R109). The accessors here name the bits of that byte. -/

namespace Sys2Proof.Machine

/-- The eight flags, "Carry, Overflow, Zero, Negative, Interrupt-mask, Half-carry, Fast-interrupt-mask, Entire-state". -/
inductive Flag where
  | carry | overflow | zero | negative | interruptMask | halfCarry | fastInterruptMask | entireState
deriving DecidableEq, Repr

/-- The bit of CC that holds a flag (R16). PRESUMED, log 5: the numbers are the family's (92_eei_decisions.md D5); safe. -/
def Flag.bit : Flag → Nat
  | .carry             => 0
  | .overflow          => 1
  | .zero              => 2
  | .negative          => 3
  | .interruptMask     => 4
  | .halfCarry         => 5
  | .fastInterruptMask => 6
  | .entireState       => 7

/-- A flag of the state. -/
def State.flag (s : State) (f : Flag) : Bool := s.CC.getLsbD f.bit

end Sys2Proof.Machine
end

