-- ==== Sys2Proof/Machine/Debug.lean ====
section
/-! DEFINITION. The host's events other than `EngineStep`: the halt request, the debug commands (60_exceptions.md section 4),
`ColdReset` (70_reset_and_hazards.md) and the Ledger's reset (60_exceptions.md section 6). -/

namespace Sys2Proof.Machine

/-- `HaltSignal`: "if `halted = 0` then `halt_req <- 1`; if `halted = 1` nothing changes" (R126), and then it is confirmed
at once (R133). Ignored without the debug subsystem (R143). -/
def haltSignal (s : State) : State :=
  if !s.params.debugPresent then s
  else if s.halted then s.observe (.reply .confirmedHalted)
  else { s with haltReq := true }

/-- `MemRead` at `a`, `a + 1`, …, modulo 65536: the bytes in that order (R139). -/
def readBytes : Nat → Word → State → List Byte × State
  | 0, _, s     => ([], s)
  | n + 1, a, s =>
    let r := busRead a s
    let rest := readBytes n (a + 1) r.2
    (r.1 :: rest.1, rest.2)

/-- `MemWrite` of each byte at `a`, `a + 1`, …, modulo 65536 (R140). -/
def writeBytes : List Byte → Word → State → State
  | [], _, s      => s
  | v :: vs, a, s => writeBytes vs (a + 1) (busWrite a v s)

/-- A command honoured only while Halted: otherwise an error acknowledgment and nothing else (R134). -/
def whileHalted (s : State) (t : State) : State := if s.halted then t else s.observe (.reply .error)

/-- One debug command (R134). With the debug subsystem absent none is accepted (R143; the error acknowledgment is log 14). -/
def runCommand (c : Command) (s : State) : State :=
  if !s.params.debugPresent then s.observe (.reply .error)
  else match c with
  | .setBreakpoint a   => whileHalted s ({ s with bp := Breakpoints.insert s.bp a }.observe (.reply .unchanged))
  | .clearBreakpoint a => whileHalted s ({ s with bp := Breakpoints.remove s.bp a }.observe (.reply .unchanged))
  | .singleStep        => whileHalted s ((goRunning true s).observe (.reply .toRunning))
  | .continueRun       => whileHalted s ((goRunning false s).observe (.reply .toRunning))
  | .readRegisters     => s.observe (.reply (.registers s.snapshot))
  | .writeRegister r v => whileHalted s ((writeReg r v s).observe (.reply .unchanged))
  | .readMemory a n    => whileHalted s ((readBytes n a s).2.observe (.reply (.bytes (readBytes n a s).1)))
  | .writeMemory a bs  => whileHalted s ((writeBytes bs a s).observe (.reply .unchanged))
  | .malformed         => s.observe (.reply .error)

/-- `ColdReset` (10_state.md R29, R30; 70_reset_and_hazards.md R160, R161): every piece of the block's state takes its reset
value; the bus environment and the parameters keep theirs. A latched halt request that is cleared here gets no answer.
DESIGN CHOICE, log 18; unsafe for a claim about the answers. -/
def coldReset (s : State) : State :=
  { s with
    A := s.params.resetRegs.A, B := s.params.resetRegs.B, X := s.params.resetRegs.X, Y := s.params.resetRegs.Y,
    U := s.params.resetRegs.U, S := s.params.resetRegs.S, PC := s.params.resetPc,
    DP := s.params.resetRegs.DP, CC := s.params.resetRegs.CC,
    ledger := 0, bp := [], halted := false, stepPending := false, haltReq := false }

/-- `LedgerRead` (R145). -/
def ledgerRead (s : State) : State := s.observe (.ledger s.ledger)

/-- `LedgerReset` (R146). -/
def ledgerReset (s : State) : State := { s with ledger := 0 }

/-- The outcome a reply stands for (R141); an error acknowledgment has none. -/
inductive CommandOutcome where
  | unchanged | toRunning | confirmedHalted
deriving DecidableEq, Repr

/-- "each processed command yields exactly one of" three outcomes (R141). -/
def replyOutcome : Reply → Option CommandOutcome
  | .error           => none
  | .unchanged       => some .unchanged
  | .registers _     => some .unchanged
  | .bytes _         => some .unchanged
  | .toRunning       => some .toRunning
  | .confirmedHalted => some .confirmedHalted

end Sys2Proof.Machine
end

