-- ==== Sys2Proof/Machine/ExchangeTransfer.lean ====
section
/-! DEFINITION. The meanings of EXG and TFR (41_exchange_transfer.md). A meaning starts after the operand fetch, with PC the
address of the next instruction (R84, R100), performs the effect, and charges the cost (40_dispatch.md R85): log 15. -/

namespace Sys2Proof.Machine

/-- `EXG_CYCLES` (00_scope.md R3). -/
def exgCycles : Nat := 6

/-- `TFR_CYCLES` (00_scope.md R3). -/
def tfrCycles : Nat := 4

/-- The effect of EXG (R103): both registers are read before either is written; an invalid pair changes nothing (R105). -/
def exchange (r0 r1 : RegCode) (s : State) : State :=
  match operands r0 r1 with
  | .wide p q   => set16 q (get16 p s) (set16 p (get16 q s) s)
  | .narrow p q => set8 q (get8 p s) (set8 p (get8 q s) s)
  | .invalid    => s

/-- The effect of TFR (R104): the first register is copied into the second; an invalid pair changes nothing (R105). -/
def transfer (r0 r1 : RegCode) (s : State) : State :=
  match operands r0 r1 with
  | .wide p q   => set16 q (get16 p s) s
  | .narrow p q => set8 q (get8 p s) s
  | .invalid    => s

/-- EXG (R103): the exchange, then 6 cycles, valid or not. -/
def execExg (r0 r1 : RegCode) (s : State) : Host.Outcome State Fault Refusal :=
  .next (account exgCycles (exchange r0 r1 s))

/-- TFR (R104): the transfer, then 4 cycles, valid or not. -/
def execTfr (r0 r1 : RegCode) (s : State) : Host.Outcome State Fault Refusal :=
  .next (account tfrCycles (transfer r0 r1 s))

end Sys2Proof.Machine
end

