-- ==== Sys2Proof/Machine/Dispatch.lean ====
section
/-! DEFINITION. Dispatch: one arm per instruction (40_dispatch.md R83). -/

namespace Sys2Proof.Machine

/-- The handler of each instruction, from the state after its bytes were fetched. -/
def exec (i : Instr) (s : State) : Host.Outcome State Fault Refusal :=
  match i with
  | .exg r0 r1 => Sys2Proof.Machine.execExg r0 r1 s
  | .tfr r0 r1 => Sys2Proof.Machine.execTfr r0 r1 s

end Sys2Proof.Machine
end

