-- ==== Sys2Proof/Machine/Engine.lean ====
section
/-! DEFINITION. The Execution Engine: `EngineStep` (40_dispatch.md R80 to R90), and the event the host raises next. -/

namespace Sys2Proof.Machine

/-- Fetch, Decode, Execute, Account (R82 to R85). A page prefix takes its second fetch and is refused (R89); the default arm
refuses (R90). DESIGN CHOICE, log 6; safe. -/
def runInstruction (s : State) : Host.Outcome State Fault Refusal :=
  let op := fetchByte s
  match select op.1 with
  | .handler h  => let pb := fetchByte op.2; exec (h.instr pb.1) pb.2
  | .page       => .refused (.pagePrefix op.1 (fetchByte op.2).1)
  | .outOfSlice => .refused (.outOfSlice op.1)

/-- A `HaltSignal` that arrives during the step: "only sets `halt_req`, which the Boundary Check of that same instruction then
sees" (R88). DEDUCED, log 12; safe. -/
def arrive (signal : Bool) (s : State) : State := if signal then haltSignal s else s

/-- `EngineStep` (R80). -/
def engineStep (signal : Bool) (s : State) : Host.Outcome State Fault Refusal :=
  let s0 := entry s
  if s0.halted then .next (returnResult (arrive signal s0))
  else match runInstruction s0 with
  | .next t    => .next (returnResult (boundaryCheck (arrive signal t)))
  | .fault f   => .fault f
  | .refused r => .refused r

/-- One event of the host (00_scope.md R2). -/
def handleEvent (e : Event) (s : State) : Host.Outcome State Fault Refusal :=
  match e with
  | .engineStep signal => engineStep signal s
  | .coldReset         => .next (coldReset s)
  | .haltSignal        => .next (haltSignal s)
  | .command c         => .next (runCommand c s)
  | .ledgerRead        => .next (ledgerRead s)
  | .ledgerReset       => .next (ledgerReset s)

/-- The event that happens next: the first of the host's list, or the host driver's next `EngineStep` (R93). Log 1. -/
def State.nextEvent (s : State) : Event := s.script.headD (.engineStep false)

/-- The state with the next event taken from the host's list. -/
def State.takeEvent (s : State) : State := { s with script := s.script.tail }

/-- The state whose next step fetches, as its instruction, these bytes stored at PC: the engine moves next, it is Running with
no halt request, the read port is bound, and memory is mapped where the bytes lie. DESIGN CHOICE, log 17; safe. -/
def placeAtPC (b0 b1 : Byte) (s : State) : State :=
  { s with
    mem := Memory.write (Memory.write s.mem s.PC.toNat b0) (s.PC + 1).toNat b1
    script := []
    halted := false
    haltReq := false
    readBound := true
    unmapped := s.unmapped.filter (fun r => !(r.holds s.PC || r.holds (s.PC + 1))) }

end Sys2Proof.Machine
end

