-- ==== Sys2Proof/Machine/Step.lean ====
section
/-! DEFINITION. The step: the next event of the host, and the fetch word for the host's probes. -/

namespace Sys2Proof.Machine

/-- One atomic transition (00_scope.md R2). -/
def step (s : State) : Host.Outcome State Fault Refusal := handleEvent s.nextEvent s.takeEvent

/-- `s` with an opcode-table word stored where the next step fetches its instruction. -/
def State.withFetchWord (s : State) (nbits w : Nat) : State :=
  placeAtPC ((tableBytes nbits w).getD 0 0) ((tableBytes nbits w).getD 1 0) s

end Sys2Proof.Machine
end

