-- ==== Sys2Proof/Safety.lean ====
section
/-! DEFINITION. What a safe state and a finished run are, in the terms the statements use. -/

namespace Sys2Proof

/-- The cost of an instruction (70_reset_and_hazards.md R176). -/
def instrCost : Instr → Nat
  | .exg _ _ => 6
  | .tfr _ _ => 4

/-- The two codes of an instruction's postbyte. -/
def Instr.codes : Instr → List RegCode
  | .exg r0 r1 => [r0, r1]
  | .tfr r0 r1 => [r0, r1]

/-- The registers an instruction writes: both operands of EXG, the second of TFR, none for an invalid pair (R103 to R105). -/
def Instr.destinations : Instr → List RegCode
  | .exg r0 r1 => if validPair r0 r1 then [r0, r1] else []
  | .tfr r0 r1 => if validPair r0 r1 then [r1] else []

/-- Writing the register a code names can change the value of this register: it is the same one, or one is D and the other a
half of it (10_state.md R11, R18). -/
def RegCode.touches : RegCode → Reg → Bool
  | .wide .d, .narrow .a => true
  | .wide .d, .narrow .b => true
  | .narrow .a, .wide .d => true
  | .narrow .b, .wide .d => true
  | .wide p, .wide q     => p == q
  | .narrow p, .narrow q => p == q
  | _, _                 => false

/-- The code that names a register. -/
def Reg.code : Reg → RegCode
  | .wide r   => .wide r
  | .narrow r => .narrow r

end Sys2Proof

namespace Sys2Proof.Machine

/-- The next step is given a meaning (40_dispatch.md R90, R92). -/
def State.canStep (s : State) : Bool :=
  match step s with
  | .next _    => true
  | .fault _   => false
  | .refused _ => false

/-- An `EngineStep` now executes an instruction: Entry neither finds the controller Halted nor honours a latched request
(40_dispatch.md R81). -/
def State.executes (s : State) : Bool := !s.halted && !s.haltReq

/-- The two bytes the engine fetches from here: at PC, then at PC + 1 (20_memory.md R46). -/
def State.codeBytes (s : State) : List Byte := [(fetchByte s).1, (fetchByte (fetchByte s).2).1]

/-- The state after the two fetches: PC is the address of the next instruction (41_exchange_transfer.md R100). -/
def State.afterFetch (s : State) : State := (fetchByte (fetchByte s).2).2

/-- The read port is bound and both bytes at PC lie in memory (20_memory.md R57). -/
def State.codeInMemory (s : State) : Bool := s.readBound && !s.isUnmapped s.PC && !s.isUnmapped (s.PC + 1)

/-- Everything the effect of one instruction may depend on: the registers, memory, the bus environment and the parameters.
LEDGER, BP, the latches, the host's list and the trace are left out. -/
def State.programView (s : State) : Snapshot × Memory × Bool × List AddrRange × Nat × Params :=
  (s.snapshot, s.mem, s.readBound, s.unmapped, s.draws, s.params)

/-- A transaction on one of the bus ports. -/
def Observation.isBus : Observation → Bool
  | .busRead _ _  => true
  | .busWrite _ _ => true
  | .result _     => false
  | .ledger _     => false
  | .reply _      => false

/-- The bus transactions observed so far, the newest first. -/
def State.busTrace (s : State) : List Observation := s.trace.filter Observation.isBus

/-- The invariant of the block. Memory and BP keep their canonical forms; LEDGER fits its positive width (10_state.md R20, R21);
while Halted both latches are clear (60_exceptions.md R128, R133); without the debug subsystem the controller stays in its
reset state (60_exceptions.md R143). -/
structure State.Inv (s : State) : Prop where
  memory   : Memory.wf s.mem
  bpSet    : Breakpoints.wf s.bp
  width    : 0 < s.params.ledgerBits
  ledgerIn : s.ledger < 2 ^ s.params.ledgerBits
  latches  : s.halted = true → s.stepPending = false ∧ s.haltReq = false
  absent   : s.params.debugPresent = false →
    s.bp = [] ∧ s.halted = false ∧ s.stepPending = false ∧ s.haltReq = false

/-- The end of a run: the `EngineStep` returned Halted with PC equal to the program's end address, which is in BP
(40_dispatch.md R94). -/
def State.endedAt (s : State) (a : Word) : Bool :=
  s.trace.head? == some (.result .halted) && s.halted && s.PC == a && s.bp.contains a

end Sys2Proof.Machine
end

