-- ==== Sys2Proof/Certificates/Slice0/Obligations.lean ====
section
/-! DEFINITION. The statements for the provers, from the numbered rules of spec/. -/

open Sys2Proof Sys2Proof.Machine

/-- For every well-formed instruction, with every register code at every value its nibble admits, and whatever bytes follow,
decode of its encoding answers that instruction and exactly those bytes.
Rests on 30_encoding.md sections 1, 2, 6 (R61, R62, R70). -/
def Obligations.EncodeThenDecodeReturnsInstruction : Prop :=
  ∀ (i : Instr) (rest : List Byte), i.wf = true → decode (encode i ++ rest) = .ok (i, rest)

/-- If bytes decode to an instruction and a rest, the instruction is well formed and its encoding followed by the rest is
those bytes: one word has one meaning.
Rests on 30_encoding.md sections 1, 2, 5 (R61, R62, R69). -/
def Obligations.DecodeThenEncodeReturnsBytes : Prop :=
  ∀ (bytes : List Byte) (i : Instr) (rest : List Byte),
    decode bytes = .ok (i, rest) → i.wf = true ∧ encode i ++ rest = bytes

/-- An EXG or TFR opcode and any postbyte decode to an instruction of exactly two bytes; a page prefix and every other first
byte are rejected, each by its own name. That these are rejected is R66 with decision D4, and the names are log 6, DESIGN
CHOICE.
Rests on 30_encoding.md section 5 (R69); 30_encoding.md section 4 (R66, decision D4); 40_dispatch.md section 3 (R89, R90,
decision D4). -/
def Obligations.OpcodeDecidesTheLength : Prop :=
  ∀ (opc pb : Byte) (rest : List Byte),
    (opc = opcExg ∨ opc = opcTfr → ∃ i, decode (opc :: pb :: rest) = .ok (i, rest) ∧ (encode i).length = 2) ∧
    (opc ∈ pagePrefixes → decode (opc :: pb :: rest) = .error (.pagePrefix opc)) ∧
    (opc ≠ opcExg → opc ≠ opcTfr → opc ∉ pagePrefixes → decode (opc :: pb :: rest) = .error (.outOfSlice opc))

/-- Codes 0 to 5 name D X Y U S PC with width 16, codes 8 to 11 name A B CC DP with width 8, codes 6, 7 and 12 to 15 name
nothing; a handler reads its two operands as the codes in the two nibbles of the postbyte.
Formalises R62. -/
def Obligations.RegisterCodeTable : Prop :=
  (∀ e ∈ [((0 : BitVec 4), Reg16.d), (1, .x), (2, .y), (3, .u), (4, .s), (5, .pc)],
    decodeCode e.1 = .wide e.2 ∧ (decodeCode e.1).width = some 16) ∧
  (∀ e ∈ [((8 : BitVec 4), Reg8.a), (9, .b), (10, .cc), (11, .dp)],
    decodeCode e.1 = .narrow e.2 ∧ (decodeCode e.1).width = some 8) ∧
  (∀ n ∈ [(6 : BitVec 4), 7, 12, 13, 14, 15], decodeCode n = .unlisted n ∧ (decodeCode n).width = none) ∧
  (∀ pb : Byte, (highNibble pb).toNat = pb.toNat / 16 ∧ (lowNibble pb).toNat = pb.toNat % 16 ∧
    Handler.instr .exg pb = .exg (decodeCode (highNibble pb)) (decodeCode (lowNibble pb)) ∧
    Handler.instr .tfr pb = .tfr (decodeCode (highNibble pb)) (decodeCode (lowNibble pb)))

/-- A pair of codes is valid exactly when both have a width and the widths are equal, so a pair of equal codes with an entry
is valid; among the 256 postbytes 36 are valid pairs of 16-bit codes, 16 of 8-bit codes, 204 invalid.
Formalises R63. -/
def Obligations.ValidPostbytesAreFiftyTwo : Prop :=
  (∀ r0 r1 : RegCode, validPair r0 r1 = true ↔ ∃ w, r0.width = some w ∧ r1.width = some w) ∧
  (∀ r : RegCode, r.width ≠ none → validPair r r = true) ∧
  (∀ codes : List (RegCode × RegCode), codes = ((List.range 256).map fun n =>
      (decodeCode (highNibble (BitVec.ofNat 8 n)), decodeCode (lowNibble (BitVec.ofNat 8 n)))) →
    (codes.filter fun c => validPair c.1 c.2 && c.1.width == some 16).length = 36 ∧
    (codes.filter fun c => validPair c.1 c.2 && c.1.width == some 8).length = 16 ∧
    (codes.filter fun c => validPair c.1 c.2).length = 52 ∧
    (codes.filter fun c => !validPair c.1 c.2).length = 204)

/-- The examples 1E 01, 1F 8A, 1F 05, 1E 15, the invalid 1E 18 and 1F 75 decode to EXG D,X; TFR A,CC; TFR D,PC; EXG X,PC; EXG
of X with A; TFR of code 7 to PC. The opcode bytes are log 4, PRESUMED.
Rests on 30_encoding.md section 6 (the assembled examples of R70); 30_encoding.md section 4. -/
def Obligations.SpelledOutWordsDecode : Prop :=
  decode [0x1E, 0x01] = .ok (.exg (.wide .d) (.wide .x), []) ∧
  decode [0x1F, 0x8A] = .ok (.tfr (.narrow .a) (.narrow .cc), []) ∧
  decode [0x1F, 0x05] = .ok (.tfr (.wide .d) (.wide .pc), []) ∧
  decode [0x1E, 0x15] = .ok (.exg (.wide .x) (.wide .pc), []) ∧
  decode [0x1E, 0x18] = .ok (.exg (.wide .x) (.narrow .a), []) ∧
  decode [0x1F, 0x75] = .ok (.tfr (.unlisted 7) (.wide .pc), [])

/-- Reading D gives A * 256 + B; writing D with v gives A the high and B the low byte of v and changes nothing else; writing A
changes the high half of D only and writing B the low half only; D is code 0 of EXG and TFR and a register of
WriteRegister.
Formalises R11. -/
def Obligations.DIsTheViewOfAAndB : Prop :=
  decodeCode 0 = .wide .d ∧
  ∀ s : State,
    (get16 .d s).toNat = s.A.toNat * 256 + s.B.toNat ∧
    (∀ v : Word, set16 .d v s = { s with A := highByte v, B := lowByte v } ∧
      (highByte v).toNat = v.toNat / 256 ∧ (lowByte v).toNat = v.toNat % 256 ∧ get16 .d (set16 .d v s) = v) ∧
    (∀ v : Nat, writeReg (.wide .d) v s = set16 .d (BitVec.ofNat 16 v) s) ∧
    (∀ v : Byte, highByte (get16 .d (set8 .a v s)) = v ∧
      lowByte (get16 .d (set8 .a v s)) = lowByte (get16 .d s)) ∧
    (∀ v : Byte, lowByte (get16 .d (set8 .b v s)) = v ∧
      highByte (get16 .d (set8 .b v s)) = highByte (get16 .d s))

/-- Every register holds an unsigned integer below 2^width, and writing a value of any size leaves the register holding that
value modulo 2^width, 16 for D X Y U S PC and 8 for A B CC DP.
Formalises R17. -/
def Obligations.RegisterWritesTruncate : Prop :=
  ∀ (s : State) (v : Nat),
    (∀ r : Reg16, readReg (.wide r) s < 2 ^ 16 ∧ readReg (.wide r) (writeReg (.wide r) v s) = v % 2 ^ 16) ∧
    (∀ r : Reg8, readReg (.narrow r) s < 2 ^ 8 ∧ readReg (.narrow r) (writeReg (.narrow r) v s) = v % 2 ^ 8)

/-- After a write of one register every register that it does not touch reads as before (D touches A, B; A and B touch D) and
every other field of the state is unchanged; a read is a value and leaves no state.
Formalises R18. -/
def Obligations.RegisterWriteChangesThatRegisterOnly : Prop :=
  ∀ (r : Reg) (v : Nat) (s : State),
    (∀ r' : Reg, r.code.touches r' = false → readReg r' (writeReg r v s) = readReg r' s) ∧
    writeReg r v s = { s with
      A := (writeReg r v s).A, B := (writeReg r v s).B, X := (writeReg r v s).X, Y := (writeReg r v s).Y,
      U := (writeReg r v s).U, S := (writeReg r v s).S, PC := (writeReg r v s).PC, DP := (writeReg r v s).DP,
      CC := (writeReg r v s).CC }

/-- For every state and every two 16-bit registers, and every two 8-bit registers, EXG answers a next state in which each
holds the value the other held, LEDGER has grown by 6 modulo 2^LEDGER_BITS; for an invalid pair it answers the state with
only LEDGER changed.
Rests on 41_exchange_transfer.md section 2 (R103); 41_exchange_transfer.md R101, R102. -/
def Obligations.ExgSwapsEveryValidPair : Prop :=
  ∀ s : State,
    (∀ p q : Reg16, ∃ t, exec (.exg (.wide p) (.wide q)) s = .next t ∧
      get16 p t = get16 q s ∧ get16 q t = get16 p s ∧
      t.ledger = (s.ledger + 6) % 2 ^ s.params.ledgerBits) ∧
    (∀ p q : Reg8, ∃ t, exec (.exg (.narrow p) (.narrow q)) s = .next t ∧
      get8 p t = get8 q s ∧ get8 q t = get8 p s ∧
      t.ledger = (s.ledger + 6) % 2 ^ s.params.ledgerBits) ∧
    (∀ r0 r1 : RegCode, validPair r0 r1 = false →
      exec (.exg r0 r1) s = .next { s with ledger := (s.ledger + 6) % 2 ^ s.params.ledgerBits })

/-- For every state and every two 16-bit registers, and every two 8-bit registers, TFR answers a next state in which the
second holds the value of the first, the first is unchanged, and LEDGER has grown by 4 modulo 2^LEDGER_BITS; for an
invalid pair it answers the state with only LEDGER changed.
Rests on 41_exchange_transfer.md section 3 (R104); 41_exchange_transfer.md R101, R102. -/
def Obligations.TfrCopiesEveryValidPair : Prop :=
  ∀ s : State,
    (∀ p q : Reg16, ∃ t, exec (.tfr (.wide p) (.wide q)) s = .next t ∧
      get16 q t = get16 p s ∧ get16 p t = get16 p s ∧
      t.ledger = (s.ledger + 4) % 2 ^ s.params.ledgerBits) ∧
    (∀ p q : Reg8, ∃ t, exec (.tfr (.narrow p) (.narrow q)) s = .next t ∧
      get8 q t = get8 p s ∧ get8 p t = get8 p s ∧
      t.ledger = (s.ledger + 4) % 2 ^ s.params.ledgerBits) ∧
    (∀ r0 r1 : RegCode, validPair r0 r1 = false →
      exec (.tfr r0 r1) s = .next { s with ledger := (s.ledger + 4) % 2 ^ s.params.ledgerBits })

/-- When EXG answers a next state, every register that neither operand of a valid pair touches is unchanged (for an invalid
pair, every register), every flag is unchanged unless CC is an operand, every byte of memory reads as before, and BP, the
latches, the bus environment, the parameters, the host list and the trace are unchanged. LEDGER is the cost, stated
elsewhere.
Rests on 41_exchange_transfer.md section 2 (R103: flags, memory); 10_state.md R18. -/
def Obligations.ExgLeavesEverythingElse : Prop :=
  ∀ (r0 r1 : RegCode) (s t : State), exec (Instr.exg r0 r1) s = .next t →
    (∀ r : Reg, (∀ c ∈ (Instr.exg r0 r1).destinations, c.touches r = false) → readReg r t = readReg r s) ∧
    (.narrow .cc ∉ (Instr.exg r0 r1).destinations → ∀ f : Flag, t.flag f = s.flag f) ∧
    (∀ a : Nat, Memory.read t.mem a = Memory.read s.mem a) ∧
    t.bp = s.bp ∧ t.halted = s.halted ∧ t.stepPending = s.stepPending ∧ t.haltReq = s.haltReq ∧
    t.readBound = s.readBound ∧ t.writeBound = s.writeBound ∧ t.unmapped = s.unmapped ∧ t.params = s.params ∧
    t.draws = s.draws ∧ t.script = s.script ∧ t.trace = s.trace

/-- When TFR answers a next state, every register that the second operand of a valid pair does not touch is unchanged (for an
invalid pair, every register), every flag is unchanged unless CC is the destination, every byte of memory reads as before,
and BP, the latches, the bus environment, the parameters, the host list and the trace are unchanged. LEDGER is the cost,
stated elsewhere.
Rests on 41_exchange_transfer.md section 3 (R104: flags, memory); 10_state.md R18. -/
def Obligations.TfrLeavesEverythingElse : Prop :=
  ∀ (r0 r1 : RegCode) (s t : State), exec (Instr.tfr r0 r1) s = .next t →
    (∀ r : Reg, (∀ c ∈ (Instr.tfr r0 r1).destinations, c.touches r = false) → readReg r t = readReg r s) ∧
    (.narrow .cc ∉ (Instr.tfr r0 r1).destinations → ∀ f : Flag, t.flag f = s.flag f) ∧
    (∀ a : Nat, Memory.read t.mem a = Memory.read s.mem a) ∧
    t.bp = s.bp ∧ t.halted = s.halted ∧ t.stepPending = s.stepPending ∧ t.haltReq = s.haltReq ∧
    t.readBound = s.readBound ∧ t.writeBound = s.writeBound ∧ t.unmapped = s.unmapped ∧ t.params = s.params ∧
    t.draws = s.draws ∧ t.script = s.script ∧ t.trace = s.trace

/-- A step that executes EXG or TFR with an invalid postbyte completes; its registers are as before but PC + 2, LEDGER has
grown by 6 or 4; where no halt condition holds at the boundary the state after differs from the state before in nothing
else (the event taken from the host list, the free bytes drawn and the observations are the model's own fields). Postbyte
0x18 is one.
Formalises R105. -/
def Obligations.InvalidPairIsAChargedNoOp : Prop :=
  (validPair (decodeCode (highNibble 0x18)) (decodeCode (lowNibble 0x18)) = false) ∧
  ∀ (s : State) (signal : Bool) (opc pb : Byte),
    s.nextEvent = .engineStep signal → s.executes = true → s.codeBytes = [opc, pb] →
    opc = opcExg ∨ opc = opcTfr →
    validPair (decodeCode (highNibble pb)) (decodeCode (lowNibble pb)) = false →
    ∃ t, step s = .next t ∧
      t.snapshot = { s.snapshot with PC := s.PC + 2 } ∧
      t.ledger = (s.ledger + if opc = opcExg then 6 else 4) % 2 ^ s.params.ledgerBits ∧
      t.mem = s.mem ∧ t.bp = s.bp ∧
      (s.PC + 2 ∉ s.bp → s.stepPending = false → signal = false →
        t = { s with PC := s.PC + 2, ledger := t.ledger, script := s.script.tail, draws := t.draws, trace := t.trace })

/-- For every 16-bit and every 8-bit register, in either order, EXG and TFR answer the state with only LEDGER changed; the
postbytes 81, 18, 09, 08 and 80 are such pairs.
Formalises R106. -/
def Obligations.MixedWidthsAreNeverConverted : Prop :=
  (∀ pb ∈ [(0x81 : Byte), 0x18, 0x09, 0x08, 0x80],
    validPair (decodeCode (highNibble pb)) (decodeCode (lowNibble pb)) = false) ∧
  ∀ (p : Reg16) (q : Reg8) (s : State),
    exec (.exg (.wide p) (.narrow q)) s = .next { s with ledger := (s.ledger + 6) % 2 ^ s.params.ledgerBits } ∧
    exec (.exg (.narrow q) (.wide p)) s = .next { s with ledger := (s.ledger + 6) % 2 ^ s.params.ledgerBits } ∧
    exec (.tfr (.wide p) (.narrow q)) s = .next { s with ledger := (s.ledger + 4) % 2 ^ s.params.ledgerBits } ∧
    exec (.tfr (.narrow q) (.wide p)) s = .next { s with ledger := (s.ledger + 4) % 2 ^ s.params.ledgerBits }

/-- For every 16-bit register r other than PC: a step that executes TFR r,PC leaves PC the old r; TFR PC,r leaves r and PC the
address of the next instruction; EXG of r and PC in either order leaves PC the old r and r the address of the next
instruction. A step that executes any instruction that does not write PC, and TFR or EXG of PC with itself, leaves PC the
address of the next instruction.
Rests on 41_exchange_transfer.md section 4 (R107); 70_reset_and_hazards.md section 3 (R166, R167). -/
def Obligations.PcOperandReadsNextAddressAndJumps : Prop :=
  ∀ (s : State) (signal : Bool), s.nextEvent = .engineStep signal → s.executes = true →
    (∀ r : Reg16, r ≠ .pc →
      (s.codeBytes = encode (.tfr (.wide r) (.wide .pc)) → ∃ t, step s = .next t ∧ t.PC = get16 r s) ∧
      (s.codeBytes = encode (.tfr (.wide .pc) (.wide r)) →
        ∃ t, step s = .next t ∧ get16 r t = s.PC + 2 ∧ t.PC = s.PC + 2) ∧
      (s.codeBytes = encode (.exg (.wide r) (.wide .pc)) ∨ s.codeBytes = encode (.exg (.wide .pc) (.wide r)) →
        ∃ t, step s = .next t ∧ t.PC = get16 r s ∧ get16 r t = s.PC + 2)) ∧
    (∀ i : Instr, i.wf = true → s.codeBytes = encode i →
      (.wide .pc ∉ i.destinations ∨ i = .tfr (.wide .pc) (.wide .pc) ∨ i = .exg (.wide .pc) (.wide .pc)) →
      ∃ t, step s = .next t ∧ t.PC = s.PC + 2)

/-- No valid pair names D with A or B. TFR of a 16-bit register to D, and EXG with D, write both A and B; a write of A changes
the high half of D only, a write of B the low half only; EXG A,B and EXG B,A swap the halves of D, so 1234 becomes 3412.
Formalises R108. -/
def Obligations.DAndItsHalvesAsOperands : Prop :=
  (∀ h ∈ [Reg8.a, .b], validPair (.wide .d) (.narrow h) = false ∧ validPair (.narrow h) (.wide .d) = false) ∧
  ∀ s : State,
    (∀ r : Reg16, ∃ t, exec (.tfr (.wide r) (.wide .d)) s = .next t ∧
      t.A = highByte (get16 r s) ∧ t.B = lowByte (get16 r s)) ∧
    (∀ r : Reg16, ∃ t, exec (.exg (.wide .d) (.wide r)) s = .next t ∧
      t.A = highByte (get16 r s) ∧ t.B = lowByte (get16 r s)) ∧
    (∀ r : Reg16, ∃ t, exec (.exg (.wide r) (.wide .d)) s = .next t ∧
      t.A = highByte (get16 r s) ∧ t.B = lowByte (get16 r s)) ∧
    (∀ r : Reg8, ∃ t, exec (.tfr (.narrow r) (.narrow .a)) s = .next t ∧
      highByte (get16 .d t) = get8 r s ∧ lowByte (get16 .d t) = lowByte (get16 .d s)) ∧
    (∀ r : Reg8, ∃ t, exec (.tfr (.narrow r) (.narrow .b)) s = .next t ∧
      lowByte (get16 .d t) = get8 r s ∧ highByte (get16 .d t) = highByte (get16 .d s)) ∧
    (∃ t, exec (.exg (.narrow .a) (.narrow .b)) s = .next t ∧ get16 .d t = concat s.B s.A ∧
      (get16 .d s = 0x1234 → get16 .d t = 0x3412)) ∧
    (∃ t, exec (.exg (.narrow .b) (.narrow .a)) s = .next t ∧ get16 .d t = concat s.B s.A)

/-- TFR to CC sets all eight bits from the source and changes nothing but CC and LEDGER, so writing the I, F or E bit has no
further effect; TFR from CC copies all eight bits; EXG with CC in either order swaps the bytes; an instruction that does
not name CC leaves CC unchanged. A = 42 and CC = 00 with TFR A,CC gives CC = 42.
Formalises R109. -/
def Obligations.CcMovesAsAWholeByte : Prop :=
  decodeCode 10 = .narrow .cc ∧
  ∀ s : State,
    (∀ r : Reg8, exec (.tfr (.narrow r) (.narrow .cc)) s =
      .next { s with CC := get8 r s, ledger := (s.ledger + 4) % 2 ^ s.params.ledgerBits }) ∧
    (∀ r : Reg8, ∃ t, exec (.tfr (.narrow .cc) (.narrow r)) s = .next t ∧ get8 r t = s.CC) ∧
    (∀ r : Reg8, ∃ t, exec (.exg (.narrow .cc) (.narrow r)) s = .next t ∧ t.CC = get8 r s ∧ get8 r t = s.CC) ∧
    (∀ r : Reg8, ∃ t, exec (.exg (.narrow r) (.narrow .cc)) s = .next t ∧ t.CC = get8 r s ∧ get8 r t = s.CC) ∧
    (∀ i : Instr, .narrow .cc ∉ i.codes → ∃ t, exec i s = .next t ∧ t.CC = s.CC) ∧
    (s.A = 0x42 → s.CC = 0x00 → ∃ t, exec (.tfr (.narrow .a) (.narrow .cc)) s = .next t ∧ t.CC = 0x42)

/-- For every code that names a register, the pair of that code with itself is valid, and EXG and TFR of it answer the state
with only LEDGER changed.
Rests on 41_exchange_transfer.md section 4 (R110, marked there as derived from R103 and R104). -/
def Obligations.SameRegisterTwiceChangesNoRegister : Prop :=
  ∀ (r : RegCode) (s : State), r.width ≠ none →
    validPair r r = true ∧
    exec (.exg r r) s = .next { s with ledger := (s.ledger + 6) % 2 ^ s.params.ledgerBits } ∧
    exec (.tfr r r) s = .next { s with ledger := (s.ledger + 4) % 2 ^ s.params.ledgerBits }

/-- For every two codes EXG of them in either order gives the same answer from every state; some TFR does not. Two steps in a
row that each execute the same EXG, PC not an operand, leave every register as before but PC + 4.
Rests on 41_exchange_transfer.md section 4 (R111, marked there as derived from R103). -/
def Obligations.ExgIsSymmetricAndTwiceRestores : Prop :=
  (∀ (r0 r1 : RegCode) (s : State), exec (.exg r0 r1) s = exec (.exg r1 r0) s) ∧
  (∃ (r0 r1 : RegCode) (s t u : State), validPair r0 r1 = true ∧
    exec (.tfr r0 r1) s = .next t ∧ exec (.tfr r1 r0) s = .next u ∧ t ≠ u) ∧
  (∀ (r0 r1 : RegCode) (s t : State) (signal signal' : Bool),
    (Instr.exg r0 r1).wf = true → r0 ≠ .wide .pc → r1 ≠ .wide .pc →
    s.nextEvent = .engineStep signal → s.executes = true → s.codeBytes = encode (.exg r0 r1) → step s = .next t →
    t.nextEvent = .engineStep signal' → t.executes = true → t.codeBytes = encode (.exg r0 r1) →
    ∃ u, step t = .next u ∧ u.snapshot = { s.snapshot with PC := s.PC + 4 })

/-- Every instruction answers a next state from every state. Every step of every state either answers a next state or is
refused by the default arm (out of slice, directly or behind a page prefix); it never faults.
Formalises R92. -/
def Obligations.EveryUnrefusedStepCompletes : Prop :=
  (∀ (i : Instr) (s : State), ∃ t, exec i s = .next t) ∧
  ∀ s : State, (∃ t, step s = .next t) ∨ (∃ opc, step s = .refused (.outOfSlice opc)) ∨
    (∃ opc opc2, step s = .refused (.pagePrefix opc opc2))

/-- When the engine moves and executes, and the two bytes at PC decode to an instruction, the step answers what exec of it
answers from the state after the fetch, followed by the arrival of a signal, the Boundary Check and the report. With the
code in memory the bytes are those at PC and PC + 1 and the fetch changes only PC, by 2, and the trace, by two reads. That
a signal arrives after Account and before the Boundary Check is log 12, DEDUCED from R88; that exec covers effect and
Account is log 15, DESIGN CHOICE.
Rests on 40_dispatch.md section 1 (R80 to R87); 40_dispatch.md section 2 (R88); 41_exchange_transfer.md section 1 (R100). -/
def Obligations.StepRunsTheDecodedInstruction : Prop :=
  ∀ (s : State) (signal : Bool), s.nextEvent = .engineStep signal → s.executes = true →
    (∀ i : Instr, decode s.codeBytes = .ok (i, []) →
      ∃ t, exec i s.takeEvent.afterFetch = .next t ∧
        step s = .next (returnResult (boundaryCheck (arrive signal t)))) ∧
    (s.codeInMemory = true →
      s.codeBytes = [Memory.read s.mem s.PC.toNat, Memory.read s.mem (s.PC + 1).toNat] ∧
      s.takeEvent.afterFetch = { s with
        PC := s.PC + 2
        script := s.script.tail
        trace := .busRead (s.PC + 1) (Memory.read s.mem (s.PC + 1).toNat) ::
          .busRead s.PC (Memory.read s.mem s.PC.toNat) :: s.trace })

/-- A step in which the engine executes is refused exactly when the first byte is neither the EXG nor the TFR opcode: a page
prefix after its second fetch, with both bytes named, any other byte alone. An engine step that ends at Entry is never
refused. The refusal is decision D4 of 92_eei_decisions.md.
Rests on 40_dispatch.md section 3 (R89, R90, decision D4); 30_encoding.md section 4. -/
def Obligations.EngineRefusesExactlyOutOfSlice : Prop :=
  ∀ (s : State) (signal : Bool), s.nextEvent = .engineStep signal →
    ((∃ r, step s = .refused r) ↔
      s.executes = true ∧ (fetchByte s).1 ≠ opcExg ∧ (fetchByte s).1 ≠ opcTfr) ∧
    (s.executes = true → (fetchByte s).1 ∈ pagePrefixes →
      step s = .refused (.pagePrefix (fetchByte s).1 (fetchByte (fetchByte s).2).1)) ∧
    (s.executes = true → (fetchByte s).1 ≠ opcExg → (fetchByte s).1 ≠ opcTfr → (fetchByte s).1 ∉ pagePrefixes →
      step s = .refused (.outOfSlice (fetchByte s).1))

/-- On a bound read port, an engine step that executes adds exactly two bus transactions to those observed, the reads of PC
and then PC + 1 with the bytes fetched; one that ends at Entry adds none. That there is no other access is decision D21.
Rests on 20_memory.md section 2 (R46, decision D21); 20_memory.md section 6 (R52). -/
def Obligations.OneInstructionIssuesTwoReads : Prop :=
  ∀ (s t : State) (signal : Bool), s.nextEvent = .engineStep signal → s.readBound = true → step s = .next t →
    (s.executes = true → t.busTrace =
      .busRead (s.PC + 1) (fetchByte (fetchByte s).2).1 :: .busRead s.PC (fetchByte s).1 :: s.busTrace) ∧
    (s.executes = false → t.busTrace = s.busTrace)

/-- While Halted, an EngineStep only reports Halted. While Running with a latched halt request, it goes to Halted, clears both
latches, confirms the request and reports Halted, and changes nothing else: no bus access, no register, not LEDGER, not
BP. A HaltSignal that arrives during such a step is absorbed and confirmed. Honouring the request at Entry is decision
D11; the confirmations are log 12 and log 13, DEDUCED.
Rests on 40_dispatch.md section 1 (R81, decision D11); 60_exceptions.md section 3 (R129, R133). -/
def Obligations.HaltedEngineStepDoesNothing : Prop :=
  ∀ (s : State) (signal : Bool) (confirm : List Observation), s.nextEvent = .engineStep signal →
    confirm = (if signal && s.params.debugPresent then [.reply .confirmedHalted] else []) →
    (s.halted = true → step s = .next { s with
      script := s.script.tail, trace := .result .halted :: (confirm ++ s.trace) }) ∧
    (s.halted = false → s.haltReq = true → step s = .next { s with
      script := s.script.tail, halted := true, stepPending := false, haltReq := false
      trace := .result .halted :: (confirm ++ .reply .confirmedHalted :: s.trace) })

/-- When the engine executes an instruction, the controller is Halted afterwards exactly when the new PC is in BP, or a step
was pending, or a HaltSignal arrived during the step (with the debug subsystem present). On halting both latches are
clear, otherwise they are as before; BP never changes, and the report is Halted exactly when the controller is. Clearing
both latches is decision D12, comparing only here is D13, ignoring a signal without the debug subsystem is D29 (log 16),
and the signal during the step is log 12, DEDUCED from R88.
Rests on 40_dispatch.md section 1 (R86, R87, decision D12); 40_dispatch.md section 2 (R88); 60_exceptions.md section 3
(R124 to R127, decisions D11, D13); 60_exceptions.md section 4 (R143, decision D29). -/
def Obligations.BoundaryCheckHaltsExactlyOnItsConditions : Prop :=
  ∀ (s t : State) (signal : Bool), s.nextEvent = .engineStep signal → s.executes = true → step s = .next t →
    (t.halted = true ↔
      t.PC ∈ s.bp ∨ s.stepPending = true ∨ (signal = true ∧ s.params.debugPresent = true)) ∧
    (t.halted = true → t.stepPending = false ∧ t.haltReq = false) ∧
    (t.halted = false → t.stepPending = s.stepPending ∧ t.haltReq = s.haltReq) ∧
    t.bp = s.bp ∧
    t.trace.head? = some (.result (if t.halted then .halted else .running))

/-- Take two states with equal registers, memory, bus environment and parameters, and anything in BP, the latches, LEDGER, the
trace and the host list beyond an EngineStep that executes. Their steps are refused alike or both complete, and then leave
equal registers, memory and environment again; with equal LEDGERs they leave equal LEDGERs.
Rests on 60_exceptions.md section 7 (R150); 60_exceptions.md section 6 (R147); 60_exceptions.md section 3 (R128). -/
def Obligations.ProgramCannotSeeTheDebugger : Prop :=
  ∀ (s s' : State) (signal signal' : Bool), s.programView = s'.programView →
    s.nextEvent = .engineStep signal → s.executes = true → s'.nextEvent = .engineStep signal' → s'.executes = true →
    (∃ r, step s = .refused r ∧ step s' = .refused r) ∨
    (∃ t t', step s = .next t ∧ step s' = .next t' ∧ t.programView = t'.programView ∧
      (s.ledger = s'.ledger → t.ledger = t'.ledger))

/-- A step from a Running state ends Halted exactly when it is an EngineStep that finds a latched request at Entry, or whose
Boundary Check finds the new PC in BP, a pending step or a signal. A step from a Halted state ends Running exactly when it
is ColdReset, or Continue or Step with the debug subsystem present. ColdReset ends Running from any state. Honouring a
request at Entry is decision D11, the conditions on the debug subsystem are D29 (log 16), and the signal during the step
is log 12, DEDUCED from R88.
Rests on 60_exceptions.md section 3 (R122, R124 to R126, R130, R131, decisions D11, D13); 60_exceptions.md section 4
(R143, decision D29); 40_dispatch.md sections 1, 2 (R81, R86, R88, decision D11); 10_state.md section 9 (R30, decision
D10). -/
def Obligations.DebugTransitionsAreExactlyTheseOnes : Prop :=
  ∀ s t : State, step s = .next t →
    (s.halted = false → (t.halted = true ↔ ∃ signal, s.nextEvent = .engineStep signal ∧
      (s.haltReq = true ∨ t.PC ∈ s.bp ∨ s.stepPending = true ∨ (signal = true ∧ s.params.debugPresent = true)))) ∧
    (s.halted = true → (t.halted = false ↔ s.nextEvent = .coldReset ∨
      (s.params.debugPresent = true ∧ (s.nextEvent = .command .continueRun ∨ s.nextEvent = .command .singleStep)))) ∧
    (s.nextEvent = .coldReset → t.halted = false)

/-- While Halted, Continue clears halted and step_pending, answers the transition to Running and changes nothing else, so that
with no halt request latched the next EngineStep executes at the same PC, in BP or not; while Running it changes nothing
and is answered with an error acknowledgment. Clearing step_pending is decision D12 and the answer while Running is D14
(log 16).
Rests on 60_exceptions.md section 3 (R130, R132, decision D12); 60_exceptions.md section 4 (R134, decision D14). -/
def Obligations.ContinueResumes : Prop :=
  ∀ s : State, s.nextEvent = .command .continueRun → s.params.debugPresent = true →
    (s.halted = true → ∃ t, step s = .next t ∧
      t = { s with halted := false, stepPending := false, script := s.script.tail
                   trace := .reply .toRunning :: s.trace } ∧
      (s.haltReq = false → t.executes = true ∧ t.codeBytes = s.codeBytes)) ∧
    (s.halted = false → step s = .next { s with script := s.script.tail, trace := .reply .error :: s.trace })

/-- While Halted with no request latched, Step clears halted, sets step_pending and answers the transition to Running. The
EngineStep after it executes the one instruction its bytes decode to, valid, invalid or a jump, and halts with both
latches clear, reporting Halted. While Running Step changes nothing and is answered with an error acknowledgment. Whenever
an instruction executes with step_pending set, the controller is Halted after it. Clearing both latches is decision D12
and the answer while Running is D14 (log 16).
Rests on 60_exceptions.md section 3 (R125, R128, R131, decision D12); 40_dispatch.md section 1 (R86, decision D12);
60_exceptions.md section 4 (R134, decision D14). -/
def Obligations.StepCommandExecutesOneInstruction : Prop :=
  (∀ (s : State) (signal : Bool) (rest : List Event) (i : Instr),
    s.script = .command .singleStep :: .engineStep signal :: rest → s.params.debugPresent = true →
    s.halted = true → s.haltReq = false → decode s.codeBytes = .ok (i, []) →
    ∃ t u v, step s = .next t ∧
      t = { s with halted := false, stepPending := true, script := .engineStep signal :: rest
                   trace := .reply .toRunning :: s.trace } ∧
      exec i t.takeEvent.afterFetch = .next v ∧ step t = .next u ∧
      u.snapshot = v.snapshot ∧ u.ledger = (s.ledger + instrCost i) % 2 ^ s.params.ledgerBits ∧
      u.halted = true ∧ u.stepPending = false ∧ u.haltReq = false ∧ u.trace.head? = some (.result .halted)) ∧
  (∀ s : State, s.nextEvent = .command .singleStep → s.params.debugPresent = true → s.halted = false →
    step s = .next { s with script := s.script.tail, trace := .reply .error :: s.trace }) ∧
  (∀ (s t : State) (signal : Bool), s.nextEvent = .engineStep signal → s.executes = true → s.stepPending = true →
    step s = .next t → t.halted = true)

/-- While Halted with PC in BP and no request latched, Continue and one EngineStep execute the instruction at PC exactly once,
whatever it is, without halting on it again first; the controller halts afterwards exactly when the new PC is in BP, as
when the instruction jumps to its own address, or a HaltSignal arrived during the step (log 12, DEDUCED from R88).
Rests on 60_exceptions.md section 3 (R132, from R124 with decision D13); 40_dispatch.md section 2 (R88);
95_test_vectors.md S8. -/
def Obligations.ResumeAtABreakpointExecutesOnce : Prop :=
  ∀ (s : State) (signal : Bool) (rest : List Event) (i : Instr),
    s.script = .command .continueRun :: .engineStep signal :: rest → s.params.debugPresent = true →
    s.halted = true → s.haltReq = false → s.PC ∈ s.bp → decode s.codeBytes = .ok (i, []) →
    ∃ t u v, step s = .next t ∧ t.halted = false ∧ exec i t.takeEvent.afterFetch = .next v ∧ step t = .next u ∧
      u.snapshot = v.snapshot ∧ u.ledger = (s.ledger + instrCost i) % 2 ^ s.params.ledgerBits ∧
      (u.halted = true ↔ u.PC ∈ s.bp ∨ signal = true)

/-- While Running, HaltSignal sets halt_req and changes nothing else; while Halted it only confirms Halted; without the debug
subsystem it is ignored. These are decisions D11, D12 and D29.
Rests on 60_exceptions.md section 3 (R126, R133, R143, decisions D11, D12, D29). -/
def Obligations.HaltSignalLatchesOrIsAbsorbed : Prop :=
  ∀ s : State, s.nextEvent = .haltSignal →
    (s.params.debugPresent = false → step s = .next { s with script := s.script.tail }) ∧
    (s.params.debugPresent = true → s.halted = false →
      step s = .next { s with script := s.script.tail, haltReq := true }) ∧
    (s.params.debugPresent = true → s.halted = true →
      step s = .next { s with script := s.script.tail, trace := .reply .confirmedHalted :: s.trace })

/-- A command other than ReadRegisters that comes while Running changes no state of the block, performs no bus access, and is
answered with an error acknowledgment (decision D14).
Rests on 60_exceptions.md section 4 (R134, decision D14). -/
def Obligations.CommandsWhileRunningAreNotProcessed : Prop :=
  ∀ (s : State) (c : Command), s.nextEvent = .command c → c ≠ .readRegisters → s.halted = false →
    step s = .next { s with script := s.script.tail, trace := .reply .error :: s.trace }

/-- While Halted, SetBreakpoint(a) makes a a member and ClearBreakpoint(a) makes it none, every other address is a member as
before, nothing else changes, the canonical form is kept, and setting a member or clearing a non-member leaves BP equal.
The set semantics is decision D18.
Rests on 60_exceptions.md section 4 (R135, R136, decision D18); 10_state.md R22. -/
def Obligations.BreakpointCommandsUpdateTheSet : Prop :=
  ∀ (s : State) (a : Word), s.params.debugPresent = true → s.halted = true → Breakpoints.wf s.bp →
    (s.nextEvent = .command (.setBreakpoint a) → ∃ t, step s = .next t ∧
      (∀ b, b ∈ t.bp ↔ b = a ∨ b ∈ s.bp) ∧ Breakpoints.wf t.bp ∧ (a ∈ s.bp → t.bp = s.bp) ∧
      t = { s with bp := t.bp, script := s.script.tail, trace := .reply .unchanged :: s.trace }) ∧
    (s.nextEvent = .command (.clearBreakpoint a) → ∃ t, step s = .next t ∧
      (∀ b, b ∈ t.bp ↔ b ≠ a ∧ b ∈ s.bp) ∧ Breakpoints.wf t.bp ∧ (a ∉ s.bp → t.bp = s.bp) ∧
      t = { s with bp := t.bp, script := s.script.tail, trace := .reply .unchanged :: s.trace })

/-- Running or Halted, ReadRegisters is answered with the values of A, B, X, Y, U, S, PC, DP and CC, and only the host list
and the trace change.
Formalises R137. -/
def Obligations.ReadRegistersReturnsTheSnapshot : Prop :=
  ∀ s : State, s.nextEvent = .command .readRegisters → s.params.debugPresent = true →
    step s = .next { s with
      script := s.script.tail
      trace := .reply (.registers
        { A := s.A, B := s.B, X := s.X, Y := s.Y, U := s.U, S := s.S, PC := s.PC, DP := s.DP, CC := s.CC }) :: s.trace }

/-- While Halted, WriteRegister(r, v) leaves r holding v modulo 2^width of r and every register that r does not touch as
before; LEDGER, BP, the debug flags, memory and everything else are unchanged. The registers it reaches are decision D17.
Rests on 60_exceptions.md section 4 (R138, decision D17); 10_state.md R17, R18. -/
def Obligations.WriteRegisterWritesOneRegister : Prop :=
  ∀ (s : State) (r : Reg) (v : Nat), s.nextEvent = .command (.writeRegister r v) → s.params.debugPresent = true →
    s.halted = true → ∃ t, step s = .next t ∧
      readReg r t = v % 2 ^ (match r with | .wide _ => 16 | .narrow _ => 8) ∧
      (∀ r' : Reg, r.code.touches r' = false → readReg r' t = readReg r' s) ∧
      t = { s with
        A := t.A, B := t.B, X := t.X, Y := t.Y, U := t.U, S := t.S, PC := t.PC, DP := t.DP, CC := t.CC
        script := s.script.tail, trace := .reply .unchanged :: s.trace }

/-- While Halted, over mapped memory, ReadMemory(a, n) performs the n reads of a, a + 1, … modulo 65536 in that order, answers
their bytes in that order, and changes nothing else; n = 0 performs no access. Going through the bus port is decision D16.
Rests on 60_exceptions.md section 4 (R139, decision D16); 20_memory.md section 4 (R49). -/
def Obligations.ReadMemoryReturnsTheBytesInOrder : Prop :=
  ∀ (s : State) (a : Word) (n : Nat), s.nextEvent = .command (.readMemory a n) → s.params.debugPresent = true →
    s.halted = true → s.readBound = true → (∀ k < n, s.isUnmapped (a + BitVec.ofNat 16 k) = false) →
    step s = .next { s with
      script := s.script.tail
      trace := .reply (.bytes ((List.range n).map fun k => Memory.read s.mem (a + BitVec.ofNat 16 k).toNat)) ::
        (((List.range n).map fun k =>
          Observation.busRead (a + BitVec.ofNat 16 k) (Memory.read s.mem (a + BitVec.ofNat 16 k).toNat)).reverse
            ++ s.trace) }

/-- While Halted, over mapped memory on a bound port, WriteMemory(a, b_0 …) of at most 65536 bytes leaves b_k at a + k modulo
65536 for every k, every other byte as before, and changes nothing else; the writes are observed in that order. Going
through the bus port is decision D16.
Rests on 60_exceptions.md section 4 (R140, decision D16); 20_memory.md section 4 (R49). -/
def Obligations.WriteMemoryStoresTheBytes : Prop :=
  ∀ (s : State) (a : Word) (bytes : List Byte), s.nextEvent = .command (.writeMemory a bytes) →
    s.params.debugPresent = true → s.halted = true → s.writeBound = true → Memory.wf s.mem →
    bytes.length ≤ 65536 → (∀ k < bytes.length, s.isUnmapped (a + BitVec.ofNat 16 k) = false) →
    ∃ t, step s = .next t ∧
      (∀ (k : Nat) (h : k < bytes.length), Memory.read t.mem (a + BitVec.ofNat 16 k).toNat = bytes[k]) ∧
      (∀ b : Nat, (∀ k < bytes.length, (a + BitVec.ofNat 16 k).toNat ≠ b) →
        Memory.read t.mem b = Memory.read s.mem b) ∧
      t = { s with
        mem := t.mem
        script := s.script.tail
        trace := .reply .unchanged :: ((bytes.mapIdx fun k v =>
          Observation.busWrite (a + BitVec.ofNat 16 k) v).reverse ++ s.trace) }

/-- While Halted, with both ports bound and memory mapped at PC and PC + 1, after WriteMemory of two bytes at PC the engine's
next two fetches read those bytes, the wrap from FFFF to 0000 included. Immediate coherence is decision D22.
Rests on 20_memory.md section 6 (R55, decision D22); 60_exceptions.md section 4 (R140). -/
def Obligations.FetchSeesTheWrittenCode : Prop :=
  ∀ (s : State) (b0 b1 : Byte), s.nextEvent = .command (.writeMemory s.PC [b0, b1]) →
    s.params.debugPresent = true → s.halted = true → s.writeBound = true → s.codeInMemory = true →
    Memory.wf s.mem → ∃ t, step s = .next t ∧ t.PC = s.PC ∧ t.codeBytes = [b0, b1]

/-- In every state, a malformed command (an unknown register name, or an argument the shapes of the command table do not
admit) changes only the host list and the trace, by an error acknowledgment.
Formalises R142. -/
def Obligations.MalformedCommandIsAnErrorOnly : Prop :=
  ∀ s : State, s.nextEvent = .command .malformed →
    step s = .next { s with script := s.script.tail, trace := .reply .error :: s.trace }

/-- From every state ColdReset answers the state whose registers are RESET_REGS and RESET_PC, LEDGER 0, BP empty, controller
Running with both latches clear; memory, the bus environment and the parameters are unchanged and no bus access is
observed. State.reset is such a state with R3's default parameters, all zero (log 3, DESIGN CHOICE). That a latched halt
request is cleared without an answer is log 18, DESIGN CHOICE.
Rests on 10_state.md section 9 (R29, R30, decisions D8, D9, D10); 70_reset_and_hazards.md section 1 (R160, R161). -/
def Obligations.ColdResetGivesTheResetValues : Prop :=
  (∀ s : State, s.nextEvent = .coldReset → step s = .next { s with
    A := s.params.resetRegs.A, B := s.params.resetRegs.B, X := s.params.resetRegs.X, Y := s.params.resetRegs.Y
    U := s.params.resetRegs.U, S := s.params.resetRegs.S, DP := s.params.resetRegs.DP, CC := s.params.resetRegs.CC
    PC := s.params.resetPc, ledger := 0, bp := [], halted := false, stepPending := false, haltReq := false
    script := s.script.tail }) ∧
  coldReset State.reset = State.reset ∧
  State.reset.snapshot = { A := 0, B := 0, X := 0, Y := 0, U := 0, S := 0, PC := 0, DP := 0, CC := 0 }

/-- Charging n cycles always completes, leaves LEDGER the sum modulo 2^LEDGER_BITS, which fits the width, and changes nothing
else; it neither traps nor saturates.
Formalises R21. -/
def Obligations.LedgerAdditionWraps : Prop :=
  ∀ (n : Nat) (s : State),
    account n s = { s with ledger := (s.ledger + n) % 2 ^ s.params.ledgerBits } ∧
    (account n s).ledger < 2 ^ s.params.ledgerBits

/-- In either controller state LedgerRead shows the value of LEDGER and changes nothing of the block, and LedgerReset sets
LEDGER to 0 and changes nothing else. That the host may do so at any boundary is decision D28.
Rests on 60_exceptions.md section 6 (R145, R146, decision D28). -/
def Obligations.LedgerEventsReadAndClear : Prop :=
  ∀ s : State,
    (s.nextEvent = .ledgerRead →
      step s = .next { s with script := s.script.tail, trace := .ledger s.ledger :: s.trace }) ∧
    (s.nextEvent = .ledgerReset → step s = .next { s with script := s.script.tail, ledger := 0 })

/-- A step in which the engine executes adds the cost of the decoded instruction, 6 or 4, modulo 2^LEDGER_BITS; ColdReset and
LedgerReset set LEDGER to 0; every other step, every debug command among them, leaves it as it was.
Formalises R20. -/
def Obligations.LedgerChangesOnlyByInstructionsAndResets : Prop :=
  ∀ s t : State, step s = .next t →
    (∀ signal, s.nextEvent = .engineStep signal → s.executes = true → ∃ i, decode s.codeBytes = .ok (i, []) ∧
      t.ledger = (s.ledger + instrCost i) % 2 ^ s.params.ledgerBits) ∧
    (s.nextEvent = .coldReset ∨ s.nextEvent = .ledgerReset → t.ledger = 0) ∧
    (((∃ signal, s.nextEvent = .engineStep signal) → s.executes = false) →
      s.nextEvent ≠ .coldReset → s.nextEvent ≠ .ledgerReset → t.ledger = s.ledger)

/-- If a step changes any register, then the controller was Running and the engine executed an instruction, or it was Halted
and the command was WriteRegister, or the event was ColdReset.
Rests on 10_state.md section 5, section 7 (R26); 60_exceptions.md section 5 (R144). -/
def Obligations.RegistersHaveOneWriterPerState : Prop :=
  ∀ s t : State, step s = .next t → t.snapshot ≠ s.snapshot →
    (s.halted = false ∧ s.executes = true ∧ ∃ signal, s.nextEvent = .engineStep signal) ∨
    (s.halted = true ∧ ∃ r v, s.nextEvent = .command (.writeRegister r v)) ∨
    s.nextEvent = .coldReset

/-- If a step changes memory, the controller was Halted and the command was WriteMemory, so the engine never writes; if it
changes BP, the controller was Halted and the command was SetBreakpoint or ClearBreakpoint, or the event was ColdReset.
Rests on 20_memory.md section 2 (R42); 10_state.md section 7 (R22); 70_reset_and_hazards.md section 1 (R161). -/
def Obligations.MemoryAndBreakpointsChangeOnlyByTheirCommands : Prop :=
  ∀ s t : State, step s = .next t →
    (t.mem ≠ s.mem → s.halted = true ∧ ∃ a bytes, s.nextEvent = .command (.writeMemory a bytes)) ∧
    (t.bp ≠ s.bp → (s.halted = true ∧ ∃ a, s.nextEvent = .command (.setBreakpoint a) ∨
      s.nextEvent = .command (.clearBreakpoint a)) ∨ s.nextEvent = .coldReset)

/-- Every step that answers a next state leaves the open parameters, the two port bindings and the map as they were, and takes
exactly one event from the host list. Holding the parameters in State is log 3, the map log 8, the port bindings log 10,
and one event of the host list for each step log 1, all DESIGN CHOICE.
Rests on 00_scope.md section 4 (R2); 00_scope.md section 5 (R3); 10_state.md section 9 (R29); 70_reset_and_hazards.md
section 2 (R164). -/
def Obligations.ParametersAndEnvironmentAreFixed : Prop :=
  ∀ s t : State, step s = .next t →
    t.params = s.params ∧ t.readBound = s.readBound ∧ t.writeBound = s.writeBound ∧ t.unmapped = s.unmapped ∧
    t.script = s.script.tail

/-- On an unbound read port one read and any number of reads answer 0x00 each and change nothing; on an unbound write port one
write and any number of writes change nothing.
Formalises R43. -/
def Obligations.UnboundPortsAnswerTheDefault : Prop :=
  ∀ (s : State) (a : Word),
    (s.readBound = false → busRead a s = (0x00, s) ∧ ∀ n, readBytes n a s = (List.replicate n 0x00, s)) ∧
    (s.writeBound = false → (∀ v, busWrite a v s = s) ∧ ∀ bytes, writeBytes bytes a s = s)

/-- On a bound port a read of an unmapped address answers the free byte of the present draw count, is observed, advances the
count by one, and changes nothing else. The form is log 8, DESIGN CHOICE; nothing is said of the byte.
Rests on 20_memory.md section 2 (R44); 93_implementation_defined.md U2. -/
def Obligations.UnmappedReadDrawsAFreshByte : Prop :=
  ∀ (s : State) (a : Word), s.readBound = true → s.isUnmapped a = true →
    busRead a s = (Config.unmappedRead s.draws,
      { s with draws := s.draws + 1, trace := .busRead a (Config.unmappedRead s.draws) :: s.trace })

/-- State.reset has memory and BP in canonical form, LEDGER within its positive width, and the debug controller as the
invariant asks. It rests on R3's default parameters (log 3, DESIGN CHOICE).
Rests on 00_scope.md section 5 (R3); 10_state.md section 9 (R29, R30); 60_exceptions.md section 3. -/
def Obligations.InvariantHoldsAtReset : Prop :=
  State.reset.Inv

/-- For every state with the invariant, whatever event comes next: memory and BP keep their canonical forms, LEDGER stays
within its width, a Halted controller has both latches clear, and without the debug subsystem the controller stays in its
reset state.
Rests on 10_state.md sections 6, 7 (R20 to R25); 60_exceptions.md section 3 (R128, R133, R143, decisions D12, D29). -/
def Obligations.EveryStepKeepsTheInvariant : Prop :=
  ∀ s t : State, s.Inv → step s = .next t → t.Inv

/-- In a state with the invariant and without the debug subsystem, an EngineStep executes an instruction and reports Running,
a HaltSignal is ignored, and a command changes nothing of the block and is answered with an error (log 14, DESIGN CHOICE).
Rests on 60_exceptions.md section 4 (R143, decision D29). -/
def Obligations.WithoutDebuggerTheEngineAlwaysRuns : Prop :=
  ∀ s t : State, s.Inv → s.params.debugPresent = false → step s = .next t →
    s.executes = true ∧
    (∀ signal, s.nextEvent = .engineStep signal → t.halted = false ∧ t.trace.head? = some (.result .running)) ∧
    (s.nextEvent = .haltSignal → t = { s with script := s.script.tail }) ∧
    (∀ c, s.nextEvent = .command c → t = { s with script := s.script.tail, trace := .reply .error :: s.trace })

/-- For every state with memory in canonical form and every opcode-table word that decodes to an instruction, the step after
withFetchWord answers what exec of that instruction answers from a state whose PC is 2 further, followed by the Boundary
Check and the report. The numbering of the word is log 11, DEDUCED; the placement is log 17, DESIGN CHOICE.
Rests on 30_encoding.md section 1 (R61); 40_dispatch.md section 1 (R80 to R83). -/
def Obligations.PlacedWordRunsNext : Prop :=
  ∀ (s : State) (nbits w : Nat) (i : Instr), Memory.wf s.mem → decodeTableWord nbits w = some i →
    ∃ t, exec i (s.withFetchWord nbits w).afterFetch = .next t ∧
      (s.withFetchWord nbits w).afterFetch.PC = s.PC + 2 ∧
      (s.withFetchWord nbits w).snapshot = s.snapshot ∧
      step (s.withFetchWord nbits w) = .next (returnResult (boundaryCheck t))
end

