-- ==== Sys2Proof/Laws/Memory.lean ====
section
/-! SUPPORT. Memory and the breakpoint set: reading after a write, membership after an insertion or a removal, and that every
operation keeps the canonical form. -/

namespace Sys2Proof.Machine

/-- Below every listed address memory reads as unlisted. -/
theorem Memory.read_of_lt {m : Memory} {a : Nat} (h : ∀ c ∈ m, a < c.1) : Memory.read m a = Config.unlistedByte := by
  induction m with
  | nil => rfl
  | cons c m ih =>
    obtain ⟨k, v⟩ := c
    have hk : a < k := h (k, v) (by simp)
    rw [Memory.read, if_neg (by omega)]
    exact ih fun c hc => h c (by simp [hc])

/-- A read after a write: the written byte at the written address, what was there before at every other. -/
theorem Memory.read_write {m : Memory} (hm : Memory.wf m) (a : Nat) (v : Byte) (b : Nat) :
    Memory.read (Memory.write m a v) b = if a = b then v else Memory.read m b := by
  induction m with
  | nil =>
    by_cases hv : v = Config.unlistedByte <;> by_cases hab : a = b <;> simp [Memory.write, Memory.read, hv, hab]
  | cons c m ih =>
    obtain ⟨k, w⟩ := c
    obtain ⟨hp, hc⟩ := hm
    rw [List.pairwise_cons] at hp
    have ih := ih ⟨hp.2, fun c h => hc c (by simp [h])⟩
    have below : ∀ d, d ≤ k → Memory.read m d = Config.unlistedByte := fun d hd =>
      Memory.read_of_lt fun c h => lt_of_le_of_lt hd (hp.1 c h)
    by_cases hka : k < a
    · simp only [Memory.write, if_pos hka, Memory.read, ih]
      by_cases hkb : k = b <;> by_cases hab : a = b <;> simp_all
    · by_cases hk : k = a
      · by_cases hv : v = Config.unlistedByte <;> by_cases hab : a = b <;> simp_all [Memory.write, Memory.read]
      · have atA : Memory.read ((k, w) :: m) a = Config.unlistedByte := by
          rw [Memory.read, if_neg hk]
          exact below a (by omega)
        simp only [Memory.write, if_neg hka, if_neg hk]
        split
        · split
          · subst_vars; exact atA
          · rfl
        · rfl

/-- A write lists no address but the written one and those listed before. -/
theorem Memory.mem_write {m : Memory} {a : Nat} {v : Byte} {c : Host.Cell} (h : c ∈ Memory.write m a v) :
    (c = (a, v) ∧ v ≠ Config.unlistedByte) ∨ c ∈ m := by
  induction m with
  | nil => by_cases hv : v = Config.unlistedByte <;> simp_all [Memory.write]
  | cons d m ih =>
    obtain ⟨k, w⟩ := d
    simp only [Memory.write] at h
    split at h
    · rcases List.mem_cons.mp h with h | h
      · exact .inr (by simp [h])
      · exact (ih h).imp id fun h => by simp [h]
    · split at h <;> split at h <;> simp_all
      all_goals tauto

/-- A write of an address in the address space keeps the canonical form. -/
theorem Memory.write_wf {m : Memory} (hm : Memory.wf m) {a : Nat} (ha : a < 65536) (v : Byte) :
    Memory.wf (Memory.write m a v) := by
  refine ⟨?_, fun c h => ?_⟩
  · obtain ⟨hp, -⟩ := hm
    induction m with
    | nil => by_cases hv : v = Config.unlistedByte <;> simp [Memory.write, hv]
    | cons d m ih =>
      obtain ⟨k, w⟩ := d
      have hp' := List.pairwise_cons.mp hp
      have tail : ∀ c ∈ m, k < c.1 := hp'.1
      simp only [Memory.write]
      split
      · refine List.pairwise_cons.mpr ⟨fun c hc => ?_, ih hp'.2⟩
        rcases Memory.mem_write hc with ⟨rfl, -⟩ | hc
        · assumption
        · exact tail c hc
      · split
        · subst_vars
          split
          · exact hp'.2
          · exact List.pairwise_cons.mpr ⟨tail, hp'.2⟩
        · split
          · exact hp
          · refine List.pairwise_cons.mpr ⟨fun c hc => ?_, hp⟩
            have hak : a < k := by omega
            rcases List.mem_cons.mp hc with rfl | hc
            · exact hak
            · exact lt_trans hak (tail c hc)
  · rcases Memory.mem_write h with ⟨rfl, hv⟩ | h
    · exact ⟨ha, hv⟩
    · exact hm.2 c h

theorem Breakpoints.mem_insert {bs : Breakpoints} {a b : Word} : b ∈ Breakpoints.insert bs a ↔ b = a ∨ b ∈ bs := by
  induction bs with
  | nil => simp [Breakpoints.insert]
  | cons c bs ih =>
    simp only [Breakpoints.insert]
    split
    · simp only [List.mem_cons, ih]; tauto
    · split
      · subst_vars; simp
      · simp

theorem Breakpoints.insert_wf {bs : Breakpoints} (h : Breakpoints.wf bs) (a : Word) :
    Breakpoints.wf (Breakpoints.insert bs a) := by
  induction bs with
  | nil => simp [Breakpoints.insert]
  | cons c bs ih =>
    have h' := List.pairwise_cons.mp h
    simp only [Breakpoints.insert]
    split
    · refine List.pairwise_cons.mpr ⟨fun b hb => ?_, ih h'.2⟩
      rcases Breakpoints.mem_insert.mp hb with rfl | hb
      · assumption
      · exact h'.1 b hb
    · split
      · exact h
      · rename_i hlt hne
        have hac : a.toNat < c.toNat := by
          have : c.toNat ≠ a.toNat := fun e => hne (BitVec.eq_of_toNat_eq e)
          omega
        refine List.pairwise_cons.mpr ⟨fun b hb => ?_, h⟩
        rcases List.mem_cons.mp hb with rfl | hb
        · exact hac
        · exact lt_trans hac (h'.1 b hb)

theorem Breakpoints.mem_remove {bs : Breakpoints} {a b : Word} : b ∈ Breakpoints.remove bs a ↔ b ∈ bs ∧ b ≠ a := by
  simp [Breakpoints.remove]

theorem Breakpoints.remove_wf {bs : Breakpoints} (h : Breakpoints.wf bs) (a : Word) :
    Breakpoints.wf (Breakpoints.remove bs a) :=
  List.Pairwise.filter _ h

end Sys2Proof.Machine
end

