-- ==== Sys2Proof/Laws/State.lean ====
section
/-! SUPPORT. One lemma per field and update: what each named update of State does to each field. -/

namespace Sys2Proof.Machine

section observe

@[simp] theorem observe_A (o : Observation) (s : State) : (s.observe o).A = s.A := rfl
@[simp] theorem observe_B (o : Observation) (s : State) : (s.observe o).B = s.B := rfl
@[simp] theorem observe_X (o : Observation) (s : State) : (s.observe o).X = s.X := rfl
@[simp] theorem observe_Y (o : Observation) (s : State) : (s.observe o).Y = s.Y := rfl
@[simp] theorem observe_U (o : Observation) (s : State) : (s.observe o).U = s.U := rfl
@[simp] theorem observe_S (o : Observation) (s : State) : (s.observe o).S = s.S := rfl
@[simp] theorem observe_PC (o : Observation) (s : State) : (s.observe o).PC = s.PC := rfl
@[simp] theorem observe_DP (o : Observation) (s : State) : (s.observe o).DP = s.DP := rfl
@[simp] theorem observe_CC (o : Observation) (s : State) : (s.observe o).CC = s.CC := rfl
@[simp] theorem observe_ledger (o : Observation) (s : State) : (s.observe o).ledger = s.ledger := rfl
@[simp] theorem observe_bp (o : Observation) (s : State) : (s.observe o).bp = s.bp := rfl
@[simp] theorem observe_halted (o : Observation) (s : State) : (s.observe o).halted = s.halted := rfl
@[simp] theorem observe_stepPending (o : Observation) (s : State) : (s.observe o).stepPending = s.stepPending := rfl
@[simp] theorem observe_haltReq (o : Observation) (s : State) : (s.observe o).haltReq = s.haltReq := rfl
@[simp] theorem observe_mem (o : Observation) (s : State) : (s.observe o).mem = s.mem := rfl
@[simp] theorem observe_readBound (o : Observation) (s : State) : (s.observe o).readBound = s.readBound := rfl
@[simp] theorem observe_writeBound (o : Observation) (s : State) : (s.observe o).writeBound = s.writeBound := rfl
@[simp] theorem observe_unmapped (o : Observation) (s : State) : (s.observe o).unmapped = s.unmapped := rfl
@[simp] theorem observe_params (o : Observation) (s : State) : (s.observe o).params = s.params := rfl
@[simp] theorem observe_draws (o : Observation) (s : State) : (s.observe o).draws = s.draws := rfl
@[simp] theorem observe_script (o : Observation) (s : State) : (s.observe o).script = s.script := rfl
@[simp] theorem observe_trace (o : Observation) (s : State) : (s.observe o).trace = o :: s.trace := rfl

end observe

section account

@[simp] theorem account_A (n : Nat) (s : State) : (account n s).A = s.A := rfl
@[simp] theorem account_B (n : Nat) (s : State) : (account n s).B = s.B := rfl
@[simp] theorem account_X (n : Nat) (s : State) : (account n s).X = s.X := rfl
@[simp] theorem account_Y (n : Nat) (s : State) : (account n s).Y = s.Y := rfl
@[simp] theorem account_U (n : Nat) (s : State) : (account n s).U = s.U := rfl
@[simp] theorem account_S (n : Nat) (s : State) : (account n s).S = s.S := rfl
@[simp] theorem account_PC (n : Nat) (s : State) : (account n s).PC = s.PC := rfl
@[simp] theorem account_DP (n : Nat) (s : State) : (account n s).DP = s.DP := rfl
@[simp] theorem account_CC (n : Nat) (s : State) : (account n s).CC = s.CC := rfl
@[simp] theorem account_ledger (n : Nat) (s : State) : (account n s).ledger = (s.ledger + n) % 2 ^ s.params.ledgerBits := rfl
@[simp] theorem account_bp (n : Nat) (s : State) : (account n s).bp = s.bp := rfl
@[simp] theorem account_halted (n : Nat) (s : State) : (account n s).halted = s.halted := rfl
@[simp] theorem account_stepPending (n : Nat) (s : State) : (account n s).stepPending = s.stepPending := rfl
@[simp] theorem account_haltReq (n : Nat) (s : State) : (account n s).haltReq = s.haltReq := rfl
@[simp] theorem account_mem (n : Nat) (s : State) : (account n s).mem = s.mem := rfl
@[simp] theorem account_readBound (n : Nat) (s : State) : (account n s).readBound = s.readBound := rfl
@[simp] theorem account_writeBound (n : Nat) (s : State) : (account n s).writeBound = s.writeBound := rfl
@[simp] theorem account_unmapped (n : Nat) (s : State) : (account n s).unmapped = s.unmapped := rfl
@[simp] theorem account_params (n : Nat) (s : State) : (account n s).params = s.params := rfl
@[simp] theorem account_draws (n : Nat) (s : State) : (account n s).draws = s.draws := rfl
@[simp] theorem account_script (n : Nat) (s : State) : (account n s).script = s.script := rfl
@[simp] theorem account_trace (n : Nat) (s : State) : (account n s).trace = s.trace := rfl

end account

section goRunning

@[simp] theorem goRunning_A (b : Bool) (s : State) : (goRunning b s).A = s.A := rfl
@[simp] theorem goRunning_B (b : Bool) (s : State) : (goRunning b s).B = s.B := rfl
@[simp] theorem goRunning_X (b : Bool) (s : State) : (goRunning b s).X = s.X := rfl
@[simp] theorem goRunning_Y (b : Bool) (s : State) : (goRunning b s).Y = s.Y := rfl
@[simp] theorem goRunning_U (b : Bool) (s : State) : (goRunning b s).U = s.U := rfl
@[simp] theorem goRunning_S (b : Bool) (s : State) : (goRunning b s).S = s.S := rfl
@[simp] theorem goRunning_PC (b : Bool) (s : State) : (goRunning b s).PC = s.PC := rfl
@[simp] theorem goRunning_DP (b : Bool) (s : State) : (goRunning b s).DP = s.DP := rfl
@[simp] theorem goRunning_CC (b : Bool) (s : State) : (goRunning b s).CC = s.CC := rfl
@[simp] theorem goRunning_ledger (b : Bool) (s : State) : (goRunning b s).ledger = s.ledger := rfl
@[simp] theorem goRunning_bp (b : Bool) (s : State) : (goRunning b s).bp = s.bp := rfl
@[simp] theorem goRunning_halted (b : Bool) (s : State) : (goRunning b s).halted = false := rfl
@[simp] theorem goRunning_stepPending (b : Bool) (s : State) : (goRunning b s).stepPending = b := rfl
@[simp] theorem goRunning_haltReq (b : Bool) (s : State) : (goRunning b s).haltReq = s.haltReq := rfl
@[simp] theorem goRunning_mem (b : Bool) (s : State) : (goRunning b s).mem = s.mem := rfl
@[simp] theorem goRunning_readBound (b : Bool) (s : State) : (goRunning b s).readBound = s.readBound := rfl
@[simp] theorem goRunning_writeBound (b : Bool) (s : State) : (goRunning b s).writeBound = s.writeBound := rfl
@[simp] theorem goRunning_unmapped (b : Bool) (s : State) : (goRunning b s).unmapped = s.unmapped := rfl
@[simp] theorem goRunning_params (b : Bool) (s : State) : (goRunning b s).params = s.params := rfl
@[simp] theorem goRunning_draws (b : Bool) (s : State) : (goRunning b s).draws = s.draws := rfl
@[simp] theorem goRunning_script (b : Bool) (s : State) : (goRunning b s).script = s.script := rfl
@[simp] theorem goRunning_trace (b : Bool) (s : State) : (goRunning b s).trace = s.trace := rfl

end goRunning

section takeEvent

@[simp] theorem takeEvent_A (s : State) : (s.takeEvent).A = s.A := rfl
@[simp] theorem takeEvent_B (s : State) : (s.takeEvent).B = s.B := rfl
@[simp] theorem takeEvent_X (s : State) : (s.takeEvent).X = s.X := rfl
@[simp] theorem takeEvent_Y (s : State) : (s.takeEvent).Y = s.Y := rfl
@[simp] theorem takeEvent_U (s : State) : (s.takeEvent).U = s.U := rfl
@[simp] theorem takeEvent_S (s : State) : (s.takeEvent).S = s.S := rfl
@[simp] theorem takeEvent_PC (s : State) : (s.takeEvent).PC = s.PC := rfl
@[simp] theorem takeEvent_DP (s : State) : (s.takeEvent).DP = s.DP := rfl
@[simp] theorem takeEvent_CC (s : State) : (s.takeEvent).CC = s.CC := rfl
@[simp] theorem takeEvent_ledger (s : State) : (s.takeEvent).ledger = s.ledger := rfl
@[simp] theorem takeEvent_bp (s : State) : (s.takeEvent).bp = s.bp := rfl
@[simp] theorem takeEvent_halted (s : State) : (s.takeEvent).halted = s.halted := rfl
@[simp] theorem takeEvent_stepPending (s : State) : (s.takeEvent).stepPending = s.stepPending := rfl
@[simp] theorem takeEvent_haltReq (s : State) : (s.takeEvent).haltReq = s.haltReq := rfl
@[simp] theorem takeEvent_mem (s : State) : (s.takeEvent).mem = s.mem := rfl
@[simp] theorem takeEvent_readBound (s : State) : (s.takeEvent).readBound = s.readBound := rfl
@[simp] theorem takeEvent_writeBound (s : State) : (s.takeEvent).writeBound = s.writeBound := rfl
@[simp] theorem takeEvent_unmapped (s : State) : (s.takeEvent).unmapped = s.unmapped := rfl
@[simp] theorem takeEvent_params (s : State) : (s.takeEvent).params = s.params := rfl
@[simp] theorem takeEvent_draws (s : State) : (s.takeEvent).draws = s.draws := rfl
@[simp] theorem takeEvent_script (s : State) : (s.takeEvent).script = s.script.tail := rfl
@[simp] theorem takeEvent_trace (s : State) : (s.takeEvent).trace = s.trace := rfl

end takeEvent

section returnResult

@[simp] theorem returnResult_A (s : State) : (returnResult s).A = s.A := rfl
@[simp] theorem returnResult_B (s : State) : (returnResult s).B = s.B := rfl
@[simp] theorem returnResult_X (s : State) : (returnResult s).X = s.X := rfl
@[simp] theorem returnResult_Y (s : State) : (returnResult s).Y = s.Y := rfl
@[simp] theorem returnResult_U (s : State) : (returnResult s).U = s.U := rfl
@[simp] theorem returnResult_S (s : State) : (returnResult s).S = s.S := rfl
@[simp] theorem returnResult_PC (s : State) : (returnResult s).PC = s.PC := rfl
@[simp] theorem returnResult_DP (s : State) : (returnResult s).DP = s.DP := rfl
@[simp] theorem returnResult_CC (s : State) : (returnResult s).CC = s.CC := rfl
@[simp] theorem returnResult_ledger (s : State) : (returnResult s).ledger = s.ledger := rfl
@[simp] theorem returnResult_bp (s : State) : (returnResult s).bp = s.bp := rfl
@[simp] theorem returnResult_halted (s : State) : (returnResult s).halted = s.halted := rfl
@[simp] theorem returnResult_stepPending (s : State) : (returnResult s).stepPending = s.stepPending := rfl
@[simp] theorem returnResult_haltReq (s : State) : (returnResult s).haltReq = s.haltReq := rfl
@[simp] theorem returnResult_mem (s : State) : (returnResult s).mem = s.mem := rfl
@[simp] theorem returnResult_readBound (s : State) : (returnResult s).readBound = s.readBound := rfl
@[simp] theorem returnResult_writeBound (s : State) : (returnResult s).writeBound = s.writeBound := rfl
@[simp] theorem returnResult_unmapped (s : State) : (returnResult s).unmapped = s.unmapped := rfl
@[simp] theorem returnResult_params (s : State) : (returnResult s).params = s.params := rfl
@[simp] theorem returnResult_draws (s : State) : (returnResult s).draws = s.draws := rfl
@[simp] theorem returnResult_script (s : State) : (returnResult s).script = s.script := rfl
@[simp] theorem returnResult_trace (s : State) : (returnResult s).trace = .result (if s.halted then .halted else .running) :: s.trace := rfl

end returnResult

section goHalted

@[simp] theorem goHalted_A (s : State) : (goHalted s).A = s.A := by
  unfold goHalted; split <;> simp [*]
@[simp] theorem goHalted_B (s : State) : (goHalted s).B = s.B := by
  unfold goHalted; split <;> simp [*]
@[simp] theorem goHalted_X (s : State) : (goHalted s).X = s.X := by
  unfold goHalted; split <;> simp [*]
@[simp] theorem goHalted_Y (s : State) : (goHalted s).Y = s.Y := by
  unfold goHalted; split <;> simp [*]
@[simp] theorem goHalted_U (s : State) : (goHalted s).U = s.U := by
  unfold goHalted; split <;> simp [*]
@[simp] theorem goHalted_S (s : State) : (goHalted s).S = s.S := by
  unfold goHalted; split <;> simp [*]
@[simp] theorem goHalted_PC (s : State) : (goHalted s).PC = s.PC := by
  unfold goHalted; split <;> simp [*]
@[simp] theorem goHalted_DP (s : State) : (goHalted s).DP = s.DP := by
  unfold goHalted; split <;> simp [*]
@[simp] theorem goHalted_CC (s : State) : (goHalted s).CC = s.CC := by
  unfold goHalted; split <;> simp [*]
@[simp] theorem goHalted_ledger (s : State) : (goHalted s).ledger = s.ledger := by
  unfold goHalted; split <;> simp [*]
@[simp] theorem goHalted_bp (s : State) : (goHalted s).bp = s.bp := by
  unfold goHalted; split <;> simp [*]
@[simp] theorem goHalted_halted (s : State) : (goHalted s).halted = true := by
  unfold goHalted; split <;> simp [*]
@[simp] theorem goHalted_stepPending (s : State) : (goHalted s).stepPending = false := by
  unfold goHalted; split <;> simp [*]
@[simp] theorem goHalted_haltReq (s : State) : (goHalted s).haltReq = false := by
  unfold goHalted; split <;> simp [*]
@[simp] theorem goHalted_mem (s : State) : (goHalted s).mem = s.mem := by
  unfold goHalted; split <;> simp [*]
@[simp] theorem goHalted_readBound (s : State) : (goHalted s).readBound = s.readBound := by
  unfold goHalted; split <;> simp [*]
@[simp] theorem goHalted_writeBound (s : State) : (goHalted s).writeBound = s.writeBound := by
  unfold goHalted; split <;> simp [*]
@[simp] theorem goHalted_unmapped (s : State) : (goHalted s).unmapped = s.unmapped := by
  unfold goHalted; split <;> simp [*]
@[simp] theorem goHalted_params (s : State) : (goHalted s).params = s.params := by
  unfold goHalted; split <;> simp [*]
@[simp] theorem goHalted_draws (s : State) : (goHalted s).draws = s.draws := by
  unfold goHalted; split <;> simp [*]
@[simp] theorem goHalted_script (s : State) : (goHalted s).script = s.script := by
  unfold goHalted; split <;> simp [*]
@[simp] theorem goHalted_trace (s : State) : (goHalted s).trace = if s.haltReq then .reply .confirmedHalted :: s.trace else s.trace := by
  unfold goHalted; split <;> simp [*]

end goHalted

section set8

@[simp] theorem set8_X (r : Reg8) (v : Byte) (s : State) : (set8 r v s).X = s.X := by
  cases r <;> rfl
@[simp] theorem set8_Y (r : Reg8) (v : Byte) (s : State) : (set8 r v s).Y = s.Y := by
  cases r <;> rfl
@[simp] theorem set8_U (r : Reg8) (v : Byte) (s : State) : (set8 r v s).U = s.U := by
  cases r <;> rfl
@[simp] theorem set8_S (r : Reg8) (v : Byte) (s : State) : (set8 r v s).S = s.S := by
  cases r <;> rfl
@[simp] theorem set8_PC (r : Reg8) (v : Byte) (s : State) : (set8 r v s).PC = s.PC := by
  cases r <;> rfl
@[simp] theorem set8_ledger (r : Reg8) (v : Byte) (s : State) : (set8 r v s).ledger = s.ledger := by
  cases r <;> rfl
@[simp] theorem set8_bp (r : Reg8) (v : Byte) (s : State) : (set8 r v s).bp = s.bp := by
  cases r <;> rfl
@[simp] theorem set8_halted (r : Reg8) (v : Byte) (s : State) : (set8 r v s).halted = s.halted := by
  cases r <;> rfl
@[simp] theorem set8_stepPending (r : Reg8) (v : Byte) (s : State) : (set8 r v s).stepPending = s.stepPending := by
  cases r <;> rfl
@[simp] theorem set8_haltReq (r : Reg8) (v : Byte) (s : State) : (set8 r v s).haltReq = s.haltReq := by
  cases r <;> rfl
@[simp] theorem set8_mem (r : Reg8) (v : Byte) (s : State) : (set8 r v s).mem = s.mem := by
  cases r <;> rfl
@[simp] theorem set8_readBound (r : Reg8) (v : Byte) (s : State) : (set8 r v s).readBound = s.readBound := by
  cases r <;> rfl
@[simp] theorem set8_writeBound (r : Reg8) (v : Byte) (s : State) : (set8 r v s).writeBound = s.writeBound := by
  cases r <;> rfl
@[simp] theorem set8_unmapped (r : Reg8) (v : Byte) (s : State) : (set8 r v s).unmapped = s.unmapped := by
  cases r <;> rfl
@[simp] theorem set8_params (r : Reg8) (v : Byte) (s : State) : (set8 r v s).params = s.params := by
  cases r <;> rfl
@[simp] theorem set8_draws (r : Reg8) (v : Byte) (s : State) : (set8 r v s).draws = s.draws := by
  cases r <;> rfl
@[simp] theorem set8_script (r : Reg8) (v : Byte) (s : State) : (set8 r v s).script = s.script := by
  cases r <;> rfl
@[simp] theorem set8_trace (r : Reg8) (v : Byte) (s : State) : (set8 r v s).trace = s.trace := by
  cases r <;> rfl

end set8

section set16

@[simp] theorem set16_DP (r : Reg16) (v : Word) (s : State) : (set16 r v s).DP = s.DP := by
  cases r <;> rfl
@[simp] theorem set16_CC (r : Reg16) (v : Word) (s : State) : (set16 r v s).CC = s.CC := by
  cases r <;> rfl
@[simp] theorem set16_ledger (r : Reg16) (v : Word) (s : State) : (set16 r v s).ledger = s.ledger := by
  cases r <;> rfl
@[simp] theorem set16_bp (r : Reg16) (v : Word) (s : State) : (set16 r v s).bp = s.bp := by
  cases r <;> rfl
@[simp] theorem set16_halted (r : Reg16) (v : Word) (s : State) : (set16 r v s).halted = s.halted := by
  cases r <;> rfl
@[simp] theorem set16_stepPending (r : Reg16) (v : Word) (s : State) : (set16 r v s).stepPending = s.stepPending := by
  cases r <;> rfl
@[simp] theorem set16_haltReq (r : Reg16) (v : Word) (s : State) : (set16 r v s).haltReq = s.haltReq := by
  cases r <;> rfl
@[simp] theorem set16_mem (r : Reg16) (v : Word) (s : State) : (set16 r v s).mem = s.mem := by
  cases r <;> rfl
@[simp] theorem set16_readBound (r : Reg16) (v : Word) (s : State) : (set16 r v s).readBound = s.readBound := by
  cases r <;> rfl
@[simp] theorem set16_writeBound (r : Reg16) (v : Word) (s : State) : (set16 r v s).writeBound = s.writeBound := by
  cases r <;> rfl
@[simp] theorem set16_unmapped (r : Reg16) (v : Word) (s : State) : (set16 r v s).unmapped = s.unmapped := by
  cases r <;> rfl
@[simp] theorem set16_params (r : Reg16) (v : Word) (s : State) : (set16 r v s).params = s.params := by
  cases r <;> rfl
@[simp] theorem set16_draws (r : Reg16) (v : Word) (s : State) : (set16 r v s).draws = s.draws := by
  cases r <;> rfl
@[simp] theorem set16_script (r : Reg16) (v : Word) (s : State) : (set16 r v s).script = s.script := by
  cases r <;> rfl
@[simp] theorem set16_trace (r : Reg16) (v : Word) (s : State) : (set16 r v s).trace = s.trace := by
  cases r <;> rfl

end set16

section writeReg

@[simp] theorem writeReg_ledger (r : Reg) (v : Nat) (s : State) : (writeReg r v s).ledger = s.ledger := by
  cases r <;> simp [writeReg]
@[simp] theorem writeReg_bp (r : Reg) (v : Nat) (s : State) : (writeReg r v s).bp = s.bp := by
  cases r <;> simp [writeReg]
@[simp] theorem writeReg_halted (r : Reg) (v : Nat) (s : State) : (writeReg r v s).halted = s.halted := by
  cases r <;> simp [writeReg]
@[simp] theorem writeReg_stepPending (r : Reg) (v : Nat) (s : State) : (writeReg r v s).stepPending = s.stepPending := by
  cases r <;> simp [writeReg]
@[simp] theorem writeReg_haltReq (r : Reg) (v : Nat) (s : State) : (writeReg r v s).haltReq = s.haltReq := by
  cases r <;> simp [writeReg]
@[simp] theorem writeReg_mem (r : Reg) (v : Nat) (s : State) : (writeReg r v s).mem = s.mem := by
  cases r <;> simp [writeReg]
@[simp] theorem writeReg_readBound (r : Reg) (v : Nat) (s : State) : (writeReg r v s).readBound = s.readBound := by
  cases r <;> simp [writeReg]
@[simp] theorem writeReg_writeBound (r : Reg) (v : Nat) (s : State) : (writeReg r v s).writeBound = s.writeBound := by
  cases r <;> simp [writeReg]
@[simp] theorem writeReg_unmapped (r : Reg) (v : Nat) (s : State) : (writeReg r v s).unmapped = s.unmapped := by
  cases r <;> simp [writeReg]
@[simp] theorem writeReg_params (r : Reg) (v : Nat) (s : State) : (writeReg r v s).params = s.params := by
  cases r <;> simp [writeReg]
@[simp] theorem writeReg_draws (r : Reg) (v : Nat) (s : State) : (writeReg r v s).draws = s.draws := by
  cases r <;> simp [writeReg]
@[simp] theorem writeReg_script (r : Reg) (v : Nat) (s : State) : (writeReg r v s).script = s.script := by
  cases r <;> simp [writeReg]
@[simp] theorem writeReg_trace (r : Reg) (v : Nat) (s : State) : (writeReg r v s).trace = s.trace := by
  cases r <;> simp [writeReg]

end writeReg

end Sys2Proof.Machine
end

