-- ==== Sys2Proof/Laws/Bus.lean ====
section
/-! SUPPORT. The bus ports: everything a read, a fetch and a write can change. -/

namespace Sys2Proof.Machine

/-- A read changes the trace and the count of free bytes, nothing else. -/
theorem busRead_frame (a : Word) (s : State) :
    (busRead a s).2 = { s with trace := (busRead a s).2.trace, draws := (busRead a s).2.draws } := by
  unfold busRead State.observe
  split
  · split <;> rfl
  · rfl

/-- A read on a bound port of a mapped address gives the byte of memory and is observed. -/
theorem busRead_mapped {a : Word} {s : State} (hb : s.readBound = true) (hu : s.isUnmapped a = false) :
    busRead a s = (Memory.read s.mem a.toNat, s.observe (.busRead a (Memory.read s.mem a.toNat))) := by
  simp [busRead, hb, hu]

/-- A read on a bound port of an unmapped address gives the next free byte and is observed. -/
theorem busRead_unmapped {a : Word} {s : State} (hb : s.readBound = true) (hu : s.isUnmapped a = true) :
    busRead a s = (Config.unmappedRead s.draws,
      { s with draws := s.draws + 1 }.observe (.busRead a (Config.unmappedRead s.draws))) := by
  simp [busRead, hb, hu]

/-- A read on an unbound port gives zero and changes nothing. -/
theorem busRead_unbound {a : Word} {s : State} (hb : s.readBound = false) : busRead a s = (0, s) := by
  simp [busRead, hb]

/-- On a bound port a read is observed once, with the byte it gave. -/
theorem busRead_trace {a : Word} {s : State} (hb : s.readBound = true) :
    (busRead a s).2.trace = .busRead a (busRead a s).1 :: s.trace := by
  unfold busRead
  rw [if_pos hb]
  split <;> rfl

/-- A fetch advances PC and otherwise changes what a read changes. -/
theorem fetchByte_frame (s : State) :
    (fetchByte s).2 =
      { s with PC := s.PC + 1, trace := (busRead s.PC s).2.trace, draws := (busRead s.PC s).2.draws } := by
  simp only [fetchByte]
  rw [busRead_frame]

theorem fetchByte_fst (s : State) : (fetchByte s).1 = (busRead s.PC s).1 := rfl

/-- A fetch on a bound port of a mapped address. -/
theorem fetchByte_mapped {s : State} (hb : s.readBound = true) (hu : s.isUnmapped s.PC = false) :
    fetchByte s = (Memory.read s.mem s.PC.toNat,
      { s with PC := s.PC + 1, trace := .busRead s.PC (Memory.read s.mem s.PC.toNat) :: s.trace }) := by
  rw [fetchByte, busRead_mapped hb hu]
  rfl

/-- A write changes memory at that address at most, and the trace. -/
theorem busWrite_frame (a : Word) (v : Byte) (s : State) :
    busWrite a v s = { s with mem := (busWrite a v s).mem, trace := (busWrite a v s).trace } := by
  unfold busWrite State.observe
  split
  · split <;> rfl
  · rfl

/-- A write keeps memory's canonical form. -/
theorem busWrite_wf {s : State} (h : Memory.wf s.mem) (a : Word) (v : Byte) : Memory.wf (busWrite a v s).mem := by
  unfold busWrite State.observe
  split
  · split
    · exact h
    · exact Memory.write_wf h a.isLt v
  · exact h

/-- Reads of a range change the trace and the count of free bytes, nothing else. -/
theorem readBytes_frame (n : Nat) (a : Word) (s : State) :
    (readBytes n a s).2 = { s with trace := (readBytes n a s).2.trace, draws := (readBytes n a s).2.draws } := by
  induction n generalizing a s with
  | zero => rfl
  | succ n ih =>
    simp only [readBytes]
    rw [ih, busRead_frame]

/-- Writes of a range change memory and the trace, nothing else. -/
theorem writeBytes_frame (bs : List Byte) (a : Word) (s : State) :
    writeBytes bs a s = { s with mem := (writeBytes bs a s).mem, trace := (writeBytes bs a s).trace } := by
  induction bs generalizing a s with
  | nil => rfl
  | cons v bs ih =>
    simp only [writeBytes]
    rw [ih, busWrite_frame]

/-- Writes of a range keep memory's canonical form. -/
theorem writeBytes_wf {s : State} (h : Memory.wf s.mem) (bs : List Byte) (a : Word) :
    Memory.wf (writeBytes bs a s).mem := by
  induction bs generalizing a s with
  | nil => exact h
  | cons v bs ih => exact ih (busWrite_wf h a v) (a + 1)

/-- What a read gives and how it moves the count of free bytes depend on memory, the port, the map and that count only. -/
theorem busRead_congr {s t : State} (hm : s.mem = t.mem) (hb : s.readBound = t.readBound) (hu : s.unmapped = t.unmapped)
    (hd : s.draws = t.draws) (a : Word) :
    (busRead a s).1 = (busRead a t).1 ∧ (busRead a s).2.draws = (busRead a t).2.draws := by
  unfold busRead State.isUnmapped
  rw [hm, hb, hu, hd]
  split
  · split <;> simp [hd]
  · simp [hd]

end Sys2Proof.Machine
end

