-- ==== Sys2Proof/Laws/Decode.lean ====
section
/-! SUPPORT. The nibbles of a postbyte, the register codes both ways, and what an opcode byte selects. -/

namespace Sys2Proof

theorem highNibble_append (a b : BitVec 4) : highNibble (a ++ b : Byte) = a := by
  revert a b
  decide

theorem lowNibble_append (a b : BitVec 4) : lowNibble (a ++ b : Byte) = b := by
  revert a b
  decide

@[simp] theorem highNibble_postbyte (r0 r1 : RegCode) : highNibble (postbyte r0 r1) = encodeCode r0 :=
  highNibble_append _ _

@[simp] theorem lowNibble_postbyte (r0 r1 : RegCode) : lowNibble (postbyte r0 r1) = encodeCode r1 :=
  lowNibble_append _ _

/-- A postbyte is its two nibbles. -/
theorem nibbles_append (pb : Byte) : (highNibble pb ++ lowNibble pb : Byte) = pb := by
  revert pb
  decide

/-- The register code table read backwards and forwards. -/
theorem decodeCode_encodeCode {r : RegCode} (h : r.wf = true) : decodeCode (encodeCode r) = r := by
  rcases r with r | r | n
  · cases r <;> rfl
  · cases r <;> rfl
  · revert n
    decide

/-- The register code table read forwards and backwards. -/
@[simp] theorem encodeCode_decodeCode (n : BitVec 4) : encodeCode (decodeCode n) = n := by
  revert n
  decide

@[simp] theorem decodeCode_wf (n : BitVec 4) : (decodeCode n).wf = true := by
  revert n
  decide

@[simp] theorem select_opcExg : select opcExg = .handler .exg := rfl

@[simp] theorem select_opcTfr : select opcTfr = .handler .tfr := rfl

/-- The byte of a handler. -/
def Handler.opcode : Handler → Byte
  | .exg => opcExg
  | .tfr => opcTfr

/-- A byte selects a handler exactly when it is that handler's opcode. -/
theorem select_handler_iff (b : Byte) (h : Handler) : select b = .handler h ↔ b = h.opcode := by
  revert b
  cases h <;> decide

/-- A byte selects the page arm exactly when it is a page prefix. -/
theorem select_page_iff (b : Byte) : select b = .page ↔ b ∈ pagePrefixes := by
  revert b
  decide

/-- A byte selects the default arm exactly when it is no opcode of the block and no page prefix. -/
theorem select_outOfSlice_iff (b : Byte) :
    select b = .outOfSlice ↔ b ≠ opcExg ∧ b ≠ opcTfr ∧ b ∉ pagePrefixes := by
  revert b
  decide

end Sys2Proof
end

