-- ==== Sys2Proof/Laws/Operands.lean ====
section
/-! SUPPORT. The D view and the register accessors: reading after a write. -/

namespace Sys2Proof.Machine

theorem concat_toNat (hi lo : Byte) : (concat hi lo).toNat = hi.toNat * 256 + lo.toNat := by
  have hl : lo.toNat < 2 ^ 8 := lo.isLt
  rw [concat, BitVec.toNat_append, ← Nat.shiftLeft_add_eq_or_of_lt hl, Nat.shiftLeft_eq]

theorem highByte_toNat (v : Word) : (highByte v).toNat = v.toNat / 256 := by
  have := v.isLt
  simp [highByte, Nat.shiftRight_eq_div_pow]
  omega

theorem lowByte_toNat (v : Word) : (lowByte v).toNat = v.toNat % 256 := by
  simp [lowByte]

@[simp] theorem highByte_concat (hi lo : Byte) : highByte (concat hi lo) = hi := by
  apply BitVec.eq_of_toNat_eq
  have := lo.isLt
  rw [highByte_toNat, concat_toNat]
  omega

@[simp] theorem lowByte_concat (hi lo : Byte) : lowByte (concat hi lo) = lo := by
  apply BitVec.eq_of_toNat_eq
  have := lo.isLt
  rw [lowByte_toNat, concat_toNat]
  omega

@[simp] theorem concat_high_low (v : Word) : concat (highByte v) (lowByte v) = v := by
  apply BitVec.eq_of_toNat_eq
  rw [concat_toNat, highByte_toNat, lowByte_toNat]
  omega

/-- `D = A * 256 + B` as numbers (R11). -/
theorem getD_toNat (s : State) : (getD s).toNat = s.A.toNat * 256 + s.B.toNat := concat_toNat s.A s.B

@[simp] theorem get8_set8 (r : Reg8) (v : Byte) (s : State) : get8 r (set8 r v s) = v := by
  cases r <;> rfl

@[simp] theorem get16_set16 (r : Reg16) (v : Word) (s : State) : get16 r (set16 r v s) = v := by
  cases r <;> simp [get16, set16, getD, setD]

theorem get8_set8_of_ne {r r' : Reg8} (h : r' ≠ r) (v : Byte) (s : State) : get8 r' (set8 r v s) = get8 r' s := by
  cases r <;> cases r' <;> first | rfl | exact absurd rfl h

theorem get16_set16_of_ne {r r' : Reg16} (h : r' ≠ r) (v : Word) (s : State) :
    get16 r' (set16 r v s) = get16 r' s := by
  cases r <;> cases r' <;> first | rfl | exact absurd rfl h

/-- Writing a register its own value changes nothing. -/
@[simp] theorem set8_get8 (r : Reg8) (s : State) : set8 r (get8 r s) s = s := by
  cases r <;> rfl

/-- Writing a register its own value changes nothing. -/
@[simp] theorem set16_get16 (r : Reg16) (s : State) : set16 r (get16 r s) s = s := by
  cases r <;> simp [get16, set16, getD, setD]

@[simp] theorem get8_account (r : Reg8) (n : Nat) (s : State) : get8 r (account n s) = get8 r s := by
  cases r <;> rfl

@[simp] theorem get16_account (r : Reg16) (n : Nat) (s : State) : get16 r (account n s) = get16 r s := by
  cases r <;> rfl

/-- A write of a value of any size stores it modulo 2^width (R17). -/
theorem readReg_writeReg (r : Reg) (v : Nat) (s : State) :
    readReg r (writeReg r v s) = v % 2 ^ (match r with | .wide _ => 16 | .narrow _ => 8) := by
  cases r <;> simp [readReg, writeReg]

/-- The operands are an invalid pair exactly when the codes are no valid pair (30_encoding.md R63). -/
theorem operands_invalid_iff (r0 r1 : RegCode) : operands r0 r1 = .invalid ↔ validPair r0 r1 = false := by
  cases r0 <;> cases r1 <;> simp [operands, validPair, RegCode.width]

end Sys2Proof.Machine
end

