-- ==== Sys2Proof/Laws/Exec.lean ====
section
/-! SUPPORT. What the meanings of EXG and TFR are made of, and everything they can change. -/

namespace Sys2Proof.Machine

/-- `t` is `s` but for the nine registers. -/
def sameButRegisters (s t : State) : Prop :=
  t = { s with A := t.A, B := t.B, X := t.X, Y := t.Y, U := t.U, S := t.S, PC := t.PC, DP := t.DP, CC := t.CC }

theorem sameButRegisters_refl (s : State) : sameButRegisters s s := rfl

theorem set8_sameButRegisters (r : Reg8) (v : Byte) (s : State) : sameButRegisters s (set8 r v s) := by
  cases r <;> rfl

theorem set16_sameButRegisters (r : Reg16) (v : Word) (s : State) : sameButRegisters s (set16 r v s) := by
  cases r <;> rfl

theorem sameButRegisters_trans {s t u : State} (h : sameButRegisters s t) (h' : sameButRegisters t u) :
    sameButRegisters s u := by
  unfold sameButRegisters at *
  rw [h', h]

theorem writeReg_sameButRegisters (r : Reg) (v : Nat) (s : State) : sameButRegisters s (writeReg r v s) := by
  cases r
  · exact set16_sameButRegisters _ _ s
  · exact set8_sameButRegisters _ _ s

/-- An exchange changes registers only. -/
theorem exchange_sameButRegisters (r0 r1 : RegCode) (s : State) : sameButRegisters s (exchange r0 r1 s) := by
  unfold exchange
  split
  · exact sameButRegisters_trans (set16_sameButRegisters ..) (set16_sameButRegisters ..)
  · exact sameButRegisters_trans (set8_sameButRegisters ..) (set8_sameButRegisters ..)
  · exact sameButRegisters_refl s

/-- A transfer changes registers only. -/
theorem transfer_sameButRegisters (r0 r1 : RegCode) (s : State) : sameButRegisters s (transfer r0 r1 s) := by
  unfold transfer
  split
  · exact set16_sameButRegisters ..
  · exact set8_sameButRegisters ..
  · exact sameButRegisters_refl s

theorem exec_exg (r0 r1 : RegCode) (s : State) :
    exec (.exg r0 r1) s = .next (account exgCycles (exchange r0 r1 s)) := rfl

theorem exec_tfr (r0 r1 : RegCode) (s : State) :
    exec (.tfr r0 r1) s = .next (account tfrCycles (transfer r0 r1 s)) := rfl

/-- Everything an instruction can do: change registers, and charge its cost. -/
theorem exec_spec (i : Instr) (s : State) :
    ∃ t, exec i s = .next (account (instrCost i) t) ∧ sameButRegisters s t := by
  cases i with
  | exg r0 r1 => exact ⟨_, exec_exg r0 r1 s, exchange_sameButRegisters r0 r1 s⟩
  | tfr r0 r1 => exact ⟨_, exec_tfr r0 r1 s, transfer_sameButRegisters r0 r1 s⟩

/-- An invalid pair changes nothing. -/
theorem exchange_invalid {r0 r1 : RegCode} (h : validPair r0 r1 = false) (s : State) : exchange r0 r1 s = s := by
  rw [exchange, (operands_invalid_iff r0 r1).mpr h]

/-- An invalid pair changes nothing. -/
theorem transfer_invalid {r0 r1 : RegCode} (h : validPair r0 r1 = false) (s : State) : transfer r0 r1 s = s := by
  rw [transfer, (operands_invalid_iff r0 r1).mpr h]

theorem exchange_wide (p q : Reg16) (s : State) :
    exchange (.wide p) (.wide q) s = set16 q (get16 p s) (set16 p (get16 q s) s) := rfl

theorem exchange_narrow (p q : Reg8) (s : State) :
    exchange (.narrow p) (.narrow q) s = set8 q (get8 p s) (set8 p (get8 q s) s) := rfl

theorem transfer_wide (p q : Reg16) (s : State) : transfer (.wide p) (.wide q) s = set16 q (get16 p s) s := rfl

theorem transfer_narrow (p q : Reg8) (s : State) : transfer (.narrow p) (.narrow q) s = set8 q (get8 p s) s := rfl

/-- A write of an 8-bit register leaves every register it does not touch. -/
theorem readReg_set8 {r : Reg8} {r' : Reg} (h : (RegCode.narrow r).touches r' = false) (v : Byte) (s : State) :
    readReg r' (set8 r v s) = readReg r' s := by
  rcases r' with r' | r' <;> cases r <;> cases r' <;> first | rfl | exact absurd h (by decide)

/-- A write of a 16-bit register leaves every register it does not touch. -/
theorem readReg_set16 {r : Reg16} {r' : Reg} (h : (RegCode.wide r).touches r' = false) (v : Word) (s : State) :
    readReg r' (set16 r v s) = readReg r' s := by
  rcases r' with r' | r' <;> cases r <;> cases r' <;> first | rfl | exact absurd h (by decide)

@[simp] theorem readReg_account (r : Reg) (n : Nat) (s : State) : readReg r (account n s) = readReg r s := by
  cases r <;> simp [readReg]

/-- Only writing CC touches CC. -/
theorem RegCode.touches_cc {c : RegCode} (h : c ≠ .narrow .cc) : c.touches (.narrow .cc) = false := by
  rcases c with r | r | n
  · cases r <;> rfl
  · cases r <;> first | rfl | exact absurd rfl h
  · rfl

end Sys2Proof.Machine
end

