-- ==== Sys2Proof/Laws/Engine.lean ====
section
/-! SUPPORT. The engine's frame and what a step can do, said once: the inversion lemmas that later proofs cite. -/

namespace Sys2Proof.Machine

/-- Fetching does not look at the host's list. -/
theorem fetchByte_takeEvent (s : State) :
    fetchByte s.takeEvent = ((fetchByte s).1, { (fetchByte s).2 with script := s.script.tail }) := by
  unfold fetchByte busRead State.takeEvent State.observe State.isUnmapped
  dsimp only
  split
  · split <;> rfl
  · rfl

/-- The two fetches advance PC by two and otherwise change what reads change. -/
theorem afterFetch_frame (s : State) :
    s.afterFetch = { s with PC := s.PC + 2, trace := s.afterFetch.trace, draws := s.afterFetch.draws } := by
  unfold State.afterFetch
  rw [fetchByte_frame (fetchByte s).2, fetchByte_frame s]
  simp [BitVec.add_assoc]

/-- What the two fetches give and leave when the code lies in memory. -/
theorem fetch_of_codeInMemory {s : State} (h : s.codeInMemory = true) :
    s.codeBytes = [Memory.read s.mem s.PC.toNat, Memory.read s.mem (s.PC + 1).toNat] ∧
    s.afterFetch = { s with
      PC := s.PC + 2
      trace := .busRead (s.PC + 1) (Memory.read s.mem (s.PC + 1).toNat) ::
        .busRead s.PC (Memory.read s.mem s.PC.toNat) :: s.trace } := by
  simp only [State.codeInMemory, Bool.and_eq_true, Bool.not_eq_true'] at h
  obtain ⟨⟨hb, h0⟩, h1⟩ := h
  constructor
  · rw [State.codeBytes, fetchByte_mapped hb h0, fetchByte_mapped (by exact hb) (by exact h1)]
  · rw [State.afterFetch, fetchByte_mapped hb h0, fetchByte_mapped (by exact hb) (by exact h1)]
    simp [BitVec.add_assoc]

/-- Fetch, Decode and Execute give a next state only through a handler. -/
theorem runInstruction_cases {s t : State} (h : runInstruction s = .next t) :
    ∃ hd, select (fetchByte s).1 = .handler hd ∧
      exec (hd.instr (fetchByte (fetchByte s).2).1) s.afterFetch = .next t := by
  unfold runInstruction at h
  dsimp only at h
  split at h
  · exact ⟨_, ‹_›, h⟩
  · cases h
  · cases h

/-- What `EngineStep` can do when it gives a next state: end at Entry, or run one instruction. -/
theorem engineStep_cases {signal : Bool} {s t : State} (h : engineStep signal s = .next t) :
    (s.executes = false ∧ t = returnResult (arrive signal (entry s)) ∧ (entry s).halted = true) ∨
    (s.executes = true ∧ ∃ u, runInstruction s = .next u ∧ t = returnResult (boundaryCheck (arrive signal u))) := by
  have he : (entry s).halted = !s.executes := by
    unfold entry State.executes
    cases hh : s.halted <;> cases hr : s.haltReq <;> simp [hh]
  unfold engineStep at h
  dsimp only at h
  split at h
  · rename_i hh
    cases h
    rw [he] at hh
    exact .inl ⟨by simpa using hh, rfl, by rw [he]; exact hh⟩
  · rename_i hh
    rw [he] at hh
    have hx : s.executes = true := by simpa using hh
    have hs : entry s = s := by
      simp only [State.executes, Bool.and_eq_true, Bool.not_eq_true'] at hx
      simp [entry, hx.1, hx.2]
    rw [hs] at h
    split at h
    · cases h
      exact .inr ⟨hx, _, ‹_›, rfl⟩
    · cases h
    · cases h

/-- What a step can do when it gives a next state, one case for each event. -/
theorem step_cases {s t : State} (h : step s = .next t) :
    (∃ signal, s.nextEvent = .engineStep signal ∧ engineStep signal s.takeEvent = .next t) ∨
    (s.nextEvent = .coldReset ∧ t = coldReset s.takeEvent) ∨
    (s.nextEvent = .haltSignal ∧ t = haltSignal s.takeEvent) ∨
    (∃ c, s.nextEvent = .command c ∧ t = runCommand c s.takeEvent) ∨
    (s.nextEvent = .ledgerRead ∧ t = ledgerRead s.takeEvent) ∨
    (s.nextEvent = .ledgerReset ∧ t = ledgerReset s.takeEvent) := by
  unfold step at h
  cases hev : s.nextEvent <;> rw [hev] at h <;> simp only [handleEvent] at h <;> first
    | exact .inl ⟨_, rfl, h⟩
    | (cases h; simp)

/-- A halt request changes its latch or the trace. -/
theorem haltSignal_frame (s : State) :
    haltSignal s = { s with haltReq := (haltSignal s).haltReq, trace := (haltSignal s).trace } := by
  unfold haltSignal State.observe
  split
  · rfl
  · split <;> rfl

theorem arrive_frame (signal : Bool) (s : State) :
    arrive signal s = { s with haltReq := (arrive signal s).haltReq, trace := (arrive signal s).trace } := by
  cases signal
  · rfl
  · exact haltSignal_frame s

/-- Going to Halted changes the three debug flags and the trace. -/
theorem goHalted_frame (s : State) :
    goHalted s = { s with halted := true, stepPending := false, haltReq := false, trace := (goHalted s).trace } := by
  unfold goHalted State.observe
  dsimp only
  split <;> rfl

/-- The Boundary Check changes the three debug flags and the trace. -/
theorem boundaryCheck_frame (s : State) :
    boundaryCheck s = { s with
      halted := (boundaryCheck s).halted
      stepPending := (boundaryCheck s).stepPending
      haltReq := (boundaryCheck s).haltReq
      trace := (boundaryCheck s).trace } := by
  unfold boundaryCheck
  split
  · rw [goHalted_frame]
  · rfl

/-- A halt condition holds exactly when a cause can be named (60_exceptions.md R123). -/
theorem haltCondition_iff_causes (s : State) : haltCondition s = true ↔ haltCauses s ≠ [] := by
  unfold haltCondition haltCauses
  cases s.bp.contains s.PC <;> cases s.stepPending <;> cases s.haltReq <;> simp

/-- What the rest of the step does after an instruction: the three debug flags and the trace, nothing else. -/
theorem finish_frame (signal : Bool) (s : State) :
    returnResult (boundaryCheck (arrive signal s)) = { s with
      halted := (boundaryCheck (arrive signal s)).halted
      stepPending := (boundaryCheck (arrive signal s)).stepPending
      haltReq := (boundaryCheck (arrive signal s)).haltReq
      trace := (returnResult (boundaryCheck (arrive signal s))).trace } := by
  simp only [returnResult, State.observe]
  rw [boundaryCheck_frame, arrive_frame]

/-- A step is the next event, from the state without it. -/
theorem step_of_event {s : State} {e : Event} (h : s.nextEvent = e) : step s = handleEvent e s.takeEvent := by
  rw [step, h]

@[simp] theorem executes_takeEvent (s : State) : s.takeEvent.executes = s.executes := rfl

/-- The bytes fetched do not depend on the host's list. -/
@[simp] theorem codeBytes_takeEvent (s : State) : s.takeEvent.codeBytes = s.codeBytes := by
  have h := fetchByte_takeEvent (fetchByte s).2
  rw [State.takeEvent, show (fetchByte s).2.script = s.script by rw [fetchByte_frame]] at h
  rw [State.codeBytes, State.codeBytes, fetchByte_takeEvent, h]

/-- When Entry lets the engine go on, it runs one instruction and then checks the boundary. -/
theorem engineStep_of_executes {s : State} (h : s.executes = true) (signal : Bool) :
    engineStep signal s = match runInstruction s with
      | .next t    => .next (returnResult (boundaryCheck (arrive signal t)))
      | .fault f   => .fault f
      | .refused r => .refused r := by
  simp only [State.executes, Bool.and_eq_true, Bool.not_eq_true'] at h
  cases hr : runInstruction s <;> simp [engineStep, entry, h.1, h.2, hr]

/-- When Entry does not, the engine only reports Halted. -/
theorem engineStep_of_not_executes {s : State} (h : s.executes = false) (signal : Bool) :
    engineStep signal s = .next (returnResult (arrive signal (entry s))) := by
  have he : (entry s).halted = true := by
    unfold entry
    cases hh : s.halted <;> cases hr : s.haltReq <;> simp_all [State.executes]
  simp [engineStep, he]

/-- Bytes that decode are run by the handler their opcode selects. -/
theorem runInstruction_of_decode {s : State} {i : Instr} (h : decode s.codeBytes = .ok (i, [])) :
    runInstruction s = exec i s.afterFetch := by
  simp only [State.codeBytes, decode] at h
  split at h
  · rename_i hd hs
    cases h
    simp only [runInstruction, hs]
    rfl
  · cases h
  · cases h

end Sys2Proof.Machine
end

