-- ==== Sys2Proof/Laws/PerInstr.lean ====
section
/-! SUPPORT. Statements about every instruction as syntax, one lemma per constructor. -/

namespace Sys2Proof.Laws.TwoByteForm

/-- Format PB: the encoding is two bytes, and the first one selects a handler (30_encoding.md R61, R69). -/
def Statement (i : Instr) : Prop :=
  ∃ opc pb h, encode i = [opc, pb] ∧ select opc = .handler h

theorem exg (r0 r1 : RegCode) : Statement (.exg r0 r1) := ⟨_, _, .exg, rfl, by decide⟩

theorem tfr (r0 r1 : RegCode) : Statement (.tfr r0 r1) := ⟨_, _, .tfr, rfl, by decide⟩

end Sys2Proof.Laws.TwoByteForm
end

