-- ==== Sys2Proof/Tests/Slice0.lean ====
section
/-! SUPPORT. Tests: the well-formedness smoke tests, words written out from the encoding of 30_encoding.md, single steps of
95_test_vectors.md, and for every obligation with hypotheses a state and operands that meet them. -/

namespace Sys2Proof.Machine.Tests

/-! Helpers. -/

/-- The start state S0 of 95_test_vectors.md part 2. -/
def s0 : State :=
  { State.reset with
    A := 0x12, B := 0x34, X := 0x5678, Y := 0x9ABC, U := 0xDEF0, S := 0x0FED, PC := 0x4000, DP := 0xC3, CC := 0xA5
    ledger := 100 }

/-- S0 with two bytes at an address and PC there. -/
def codeAt (a : Word) (b0 b1 : Byte) : State :=
  { s0 with PC := a, mem := Memory.write (Memory.write [] a.toNat b0) (a + 1).toNat b1 }

/-- S0 with two bytes at 4000. -/
def code (b0 b1 : Byte) : State := codeAt 0x4000 b0 b1

/-- The host raises this event next. -/
def raising (e : Event) (s : State) : State := { s with script := [e] }

/-- The controller is Halted. -/
def stopped (s : State) : State := { s with halted := true }

/-- The debug subsystem is absent. -/
def debugless (s : State) : State := { s with params := { Params.default with debugPresent := false } }

/-- A property of the state a step answers, false where it answers none. -/
def afterStep (s : State) (p : State → Bool) : Bool :=
  match step s with
  | .next t    => p t
  | .fault _   => false
  | .refused _ => false

/-- The same of one instruction. -/
def afterExec (i : Instr) (s : State) (p : State → Bool) : Bool :=
  match exec i s with
  | .next t    => p t
  | .fault _   => false
  | .refused _ => false

/-! Well-formedness (30_encoding.md R62, R67): a listed code said to name nothing is refused, an invalid pair is not. -/

theorem test_wf_refuses_first_code : (Instr.exg (.unlisted 5) (.wide .d)).wf = false := by decide
theorem test_wf_refuses_second_code : (Instr.exg (.wide .d) (.unlisted 8)).wf = false := by decide
theorem test_wf_refuses_tfr_first : (Instr.tfr (.unlisted 11) (.narrow .a)).wf = false := by decide
theorem test_wf_refuses_tfr_second : (Instr.tfr (.narrow .a) (.unlisted 0)).wf = false := by decide
theorem test_wf_accepts_unlisted : ∀ n ∈ unlistedCodes, (Instr.tfr (.unlisted n) (.wide .pc)).wf = true := by decide
theorem test_wf_accepts_mixed_widths : (Instr.exg (.wide .x) (.narrow .a)).wf = true := by decide

/-! Decoding: words written out from 30_encoding.md R61, R62, R64, R70. -/

theorem test_decode_exg_d_x : decode [0x1E, 0x01] = .ok (.exg (.wide .d) (.wide .x), []) := by decide
theorem test_decode_exg_dp_a : decode [0x1E, 0xB8, 0x99] = .ok (.exg (.narrow .dp) (.narrow .a), [0x99]) := by decide
theorem test_decode_tfr_a_cc : decode [0x1F, 0x8A] = .ok (.tfr (.narrow .a) (.narrow .cc), []) := by decide
theorem test_decode_tfr_s_pc : decode [0x1F, 0x45] = .ok (.tfr (.wide .s) (.wide .pc), []) := by decide
theorem test_decode_exg_invalid : decode [0x1E, 0x7C] = .ok (.exg (.unlisted 7) (.unlisted 12), []) := by decide
theorem test_decode_rejects :
    decode [] = .error .noOpcode ∧ decode [0x1E] = .error (.noPostbyte 0x1E) ∧
    decode [0x12, 0x01] = .error (.outOfSlice 0x12) ∧ decode [0x10, 0x1E] = .error (.pagePrefix 0x10) ∧
    decode [0x11, 0x1F] = .error (.pagePrefix 0x11) ∧ decode [0x00, 0x00] = .error (.outOfSlice 0x00) := by decide
theorem test_decode_codes :
    (List.range 16).map (fun n => decodeCode (BitVec.ofNat 4 n)) =
      [.wide .d, .wide .x, .wide .y, .wide .u, .wide .s, .wide .pc, .unlisted 6, .unlisted 7,
       .narrow .a, .narrow .b, .narrow .cc, .narrow .dp, .unlisted 12, .unlisted 13, .unlisted 14, .unlisted 15] := by
  decide
theorem test_encode_words :
    encode (.exg (.wide .x) (.wide .pc)) = [0x1E, 0x15] ∧ encode (.tfr (.wide .pc) (.wide .x)) = [0x1F, 0x51] := by decide
theorem test_table_words :
    decodeTableWord 16 0x1E01 = some (.exg (.wide .d) (.wide .x)) ∧
    decodeTableWord 16 0x1F8A = some (.tfr (.narrow .a) (.narrow .cc)) ∧
    decodeTableWord 16 0x101E = none ∧ decodeTableWord 8 0x1F = some (.tfr (.wide .d) (.wide .d)) := by decide
theorem test_spelling :
    (Instr.exg (.wide .x) (.wide .pc)).spelling = some "EXG X,PC" ∧
    (Instr.tfr (.narrow .a) (.narrow .cc)).spelling = some "TFR A,CC" ∧
    (Instr.exg (.wide .x) (.narrow .a)).spelling = none := by decide

/-! One step each, from 95_test_vectors.md. -/

/-- EXG D,PC: the value exchanged is the next address. -/
theorem test_exg_d_pc : step (code 0x1E 0x05) = .next { code 0x1E 0x05 with
    A := 0x40, B := 0x02, PC := 0x1234, ledger := 106
    trace := [.result .running, .busRead 0x4001 0x05, .busRead 0x4000 0x1E] } := rfl

/-- V2: EXG A,B at FFFE, PC wraps. -/
theorem test_exg_a_b_wrap : afterStep (codeAt 0xFFFE 0x1E 0x89)
    (fun t => t.A == 0x34 && t.B == 0x12 && t.PC == 0x0000 && t.ledger == 106) = true := by decide

/-- V1: TFR X,Y at FFFF, the instruction wraps the address space. -/
theorem test_tfr_x_y_wrap : step (codeAt 0xFFFF 0x1F 0x12) = .next { codeAt 0xFFFF 0x1F 0x12 with
    Y := 0x5678, PC := 0x0001, ledger := 104
    trace := [.result .running, .busRead 0x0000 0x12, .busRead 0xFFFF 0x1F] } := rfl

/-- 1F 75: the pair is invalid, PC is not written. -/
theorem test_tfr_unlisted_to_pc : afterStep (code 0x1F 0x75)
    (fun t => t.snapshot == { s0.snapshot with PC := 0x4002 } && t.ledger == 104) = true := by decide

/-- V3: the Ledger wraps. -/
theorem test_ledger_wraps : afterStep { code 0x1E 0x11 with ledger := 2 ^ 64 - 2 } (fun t => t.ledger == 4) = true := by
  decide

/-- V5 and V6: Entry ends the step when Halted, and honours a latched request. -/
theorem test_entry :
    step (stopped (code 0x1E 0x01)) = .next { stopped (code 0x1E 0x01) with trace := [.result .halted] } ∧
    step { code 0x1E 0x01 with haltReq := true } =
      .next { stopped (code 0x1E 0x01) with trace := [.result .halted, .reply .confirmedHalted] } := ⟨rfl, rfl⟩

/-- V8, V9, V11, V13: the Boundary Check compares the new PC, and one halt serves all conditions. -/
theorem test_boundary :
    afterStep { code 0x1F 0x12 with bp := [0x4002] } (fun t => t.halted && t.ledger == 104) = true ∧
    afterStep { code 0x1F 0x12 with bp := [0x4000] } (fun t => !t.halted) = true ∧
    afterStep { code 0x1F 0x15 with bp := [0x5678] } (fun t => t.halted && t.PC == 0x5678) = true ∧
    afterStep { code 0x1F 0x11 with bp := [0x4002], stepPending := true }
      (fun t => t.halted && !t.stepPending && !t.haltReq) = true := by decide

/-- V14, V15, V16: refusals. -/
theorem test_refusals :
    step (code 0x12 0x01) = .refused (.outOfSlice 0x12) ∧ step (code 0x10 0x1E) = .refused (.pagePrefix 0x10 0x1E) ∧
    step s0 = .refused (.outOfSlice 0x00) := ⟨rfl, rfl, rfl⟩

/-- W2, W6, W7, W18: set semantics, truncation, a range that wraps. -/
theorem test_commands :
    afterStep (raising (.command (.setBreakpoint 0x4002)) (stopped { s0 with bp := [0x4002] }))
      (fun t => t.bp == [0x4002]) = true ∧
    afterStep (raising (.command (.writeRegister (.narrow .a) 0x1FF)) (stopped s0))
      (fun t => t.snapshot == { s0.snapshot with A := 0xFF }) = true ∧
    afterStep (raising (.command (.writeRegister (.wide .pc) 0x12345)) (stopped s0)) (fun t => t.PC == 0x2345) = true ∧
    afterStep (raising (.command (.readMemory 0xFFFF 2)) (stopped (codeAt 0xFFFF 0xAA 0xBB)))
      (fun t => t.trace ==
        [.reply (.bytes [0xAA, 0xBB]), .busRead 0x0000 0xBB, .busRead 0xFFFF 0xAA]) = true := by decide

/-- W24: ColdReset with RESET_PC = 8000. -/
theorem test_cold_reset :
    afterStep (raising .coldReset { stopped (code 0x1F 0x8A) with
        bp := [1], params := { Params.default with resetPc := 0x8000 } })
      (fun t => t.snapshot == { A := 0, B := 0, X := 0, Y := 0, U := 0, S := 0, PC := 0x8000, DP := 0, CC := 0 } &&
        t.ledger == 0 && t.bp == [] && !t.halted && t.mem == (code 0x1F 0x8A).mem) = true := by decide

/-- The first step from reset with nothing placed is refused; with a word placed it runs. -/
theorem test_from_reset :
    step State.reset = .refused (.outOfSlice 0x00) ∧
    afterStep (State.reset.withFetchWord 16 0x1F8A) (fun t => t.PC == 2 && t.ledger == 4) = true :=
  ⟨rfl, by decide⟩

/-- R16: a flag is its bit of CC. -/
theorem test_flags : (s0.flag .carry, s0.flag .zero, s0.flag .entireState, s0.flag .interruptMask) =
    (true, true, true, false) := by decide

/-- R94: the end of a run. -/
theorem test_end : afterStep { code 0x1F 0x12 with bp := [0x4002] } (fun t => t.endedAt 0x4002) = true := by decide

/-! For every obligation with hypotheses: a state and operands that meet them, one for each clause. -/

theorem witness_EncodeThenDecodeReturnsInstruction :
    (Instr.exg (.wide .pc) (.unlisted 15)).wf = true ∧ (Instr.tfr (.narrow .dp) (.wide .d)).wf = true := by decide

theorem witness_DecodeThenEncodeReturnsBytes :
    decode [0x1F, 0xFF, 0x1E] = .ok (.tfr (.unlisted 15) (.unlisted 15), [0x1E]) := by decide

theorem witness_OpcodeDecidesTheLength :
    ((0x1E : Byte) = opcExg ∨ (0x1E : Byte) = opcTfr) ∧ ((0x1F : Byte) = opcExg ∨ (0x1F : Byte) = opcTfr) ∧
    (0x10 : Byte) ∈ pagePrefixes ∧ (0x11 : Byte) ∈ pagePrefixes ∧
    (∀ b ∈ [(0x00 : Byte), 0x12, 0x1D, 0x20, 0xFF], b ≠ opcExg ∧ b ≠ opcTfr ∧ b ∉ pagePrefixes) := by decide

theorem witness_ValidPostbytesAreFiftyTwo :
    (RegCode.wide .d).width ≠ none ∧ (RegCode.narrow .dp).width ≠ none := by decide

theorem witness_RegisterWriteChangesThatRegisterOnly :
    (Reg.wide .d).code.touches (.wide .pc) = false ∧ (Reg.narrow .a).code.touches (.narrow .b) = false ∧
    (Reg.wide .pc).code.touches (.narrow .a) = false := by decide

theorem witness_ExgSwapsEveryValidPair :
    validPair (.wide .x) (.narrow .a) = false ∧ validPair (.unlisted 6) (.unlisted 6) = false := by decide

theorem witness_TfrCopiesEveryValidPair :
    validPair (.narrow .b) (.wide .d) = false ∧ validPair (.unlisted 7) (.wide .pc) = false := by decide

theorem witness_ExgLeavesEverythingElse :
    (∃ t, exec (.exg (.wide .x) (.wide .d)) s0 = .next t) ∧
    (∀ c ∈ (Instr.exg (.wide .x) (.wide .d)).destinations, c.touches (.wide .y) = false) ∧
    .narrow .cc ∉ (Instr.exg (.wide .x) (.wide .d)).destinations ∧
    .narrow .cc ∉ (Instr.exg (.narrow .cc) (.wide .d)).destinations := ⟨⟨_, rfl⟩, by decide, by decide, by decide⟩

theorem witness_TfrLeavesEverythingElse :
    (∃ t, exec (.tfr (.narrow .cc) (.narrow .a)) s0 = .next t) ∧
    (∀ c ∈ (Instr.tfr (.narrow .cc) (.narrow .a)).destinations, c.touches (.narrow .b) = false) ∧
    .narrow .cc ∉ (Instr.tfr (.narrow .cc) (.narrow .a)).destinations := ⟨⟨_, rfl⟩, by decide, by decide⟩

theorem witness_InvalidPairIsAChargedNoOp : ∀ s ∈ [code 0x1E 0x18, code 0x1F 0xFF],
    s.nextEvent = .engineStep false ∧ s.executes = true ∧
    (s.codeBytes = [opcExg, 0x18] ∨ s.codeBytes = [opcTfr, 0xFF]) ∧
    validPair (decodeCode (highNibble 0x18)) (decodeCode (lowNibble 0x18)) = false ∧
    validPair (decodeCode (highNibble 0xFF)) (decodeCode (lowNibble 0xFF)) = false ∧
    s.PC + 2 ∉ s.bp ∧ s.stepPending = false := by decide

theorem witness_PcOperandReadsNextAddressAndJumps :
    (code 0x1F 0x05).nextEvent = .engineStep false ∧ (code 0x1F 0x05).executes = true ∧
    (code 0x1F 0x05).codeBytes = encode (.tfr (.wide .d) (.wide .pc)) ∧
    (code 0x1F 0x54).codeBytes = encode (.tfr (.wide .pc) (.wide .s)) ∧
    (codeAt 0xFFFF 0x1E 0x15).codeBytes = encode (.exg (.wide .x) (.wide .pc)) ∧
    (code 0x1E 0x50).codeBytes = encode (.exg (.wide .pc) (.wide .d)) ∧
    (code 0x1E 0x55).codeBytes = encode (.exg (.wide .pc) (.wide .pc)) ∧
    (code 0x1F 0x51).codeBytes = encode (.tfr (.wide .pc) (.wide .x)) ∧
    .wide .pc ∉ (Instr.tfr (.wide .pc) (.wide .x)).destinations := by decide

theorem witness_DAndItsHalvesAsOperands : get16 .d s0 = 0x1234 := by decide

theorem witness_CcMovesAsAWholeByte :
    .narrow .cc ∉ (Instr.exg (.narrow .a) (.narrow .dp)).codes ∧
    ({ s0 with A := 0x42, CC := 0x00 } : State).A = 0x42 ∧ ({ s0 with A := 0x42, CC := 0x00 } : State).CC = 0x00 := by
  decide

theorem witness_SameRegisterTwiceChangesNoRegister :
    (RegCode.wide .pc).width ≠ none ∧ (RegCode.narrow .cc).width ≠ none := by decide

/-- V17: two EXG D,X in a row. -/
theorem witness_ExgIsSymmetricAndTwiceRestores :
    (Instr.exg (.wide .d) (.wide .x)).wf = true ∧
    ∃ t, step { code 0x1E 0x01 with mem := [(0x4000, 0x1E), (0x4001, 0x01), (0x4002, 0x1E), (0x4003, 0x01)] } = .next t ∧
      (code 0x1E 0x01).codeBytes = encode (.exg (.wide .d) (.wide .x)) ∧
      t.nextEvent = .engineStep false ∧ t.executes = true ∧ t.codeBytes = encode (.exg (.wide .d) (.wide .x)) :=
  ⟨by decide, _, rfl, by decide, rfl, rfl, rfl⟩

theorem witness_StepRunsTheDecodedInstruction :
    (codeAt 0xFFFF 0x1F 0x12).nextEvent = .engineStep false ∧ (codeAt 0xFFFF 0x1F 0x12).executes = true ∧
    decode (codeAt 0xFFFF 0x1F 0x12).codeBytes = .ok (.tfr (.wide .x) (.wide .y), []) ∧
    (codeAt 0xFFFF 0x1F 0x12).codeInMemory = true := by decide

theorem witness_EngineRefusesExactlyOutOfSlice :
    (code 0x10 0x1E).nextEvent = .engineStep false ∧ (code 0x10 0x1E).executes = true ∧
    (fetchByte (code 0x10 0x1E)).1 ∈ pagePrefixes ∧ (fetchByte (code 0x11 0x1F)).1 ∈ pagePrefixes ∧
    (fetchByte (code 0x12 0x00)).1 ∉ pagePrefixes ∧ (fetchByte (code 0x12 0x00)).1 ≠ opcExg ∧
    (fetchByte (code 0x12 0x00)).1 ≠ opcTfr := by decide

theorem witness_OneInstructionIssuesTwoReads :
    (code 0x1F 0x12).nextEvent = .engineStep false ∧ (code 0x1F 0x12).readBound = true ∧
    (code 0x1F 0x12).canStep = true ∧ (code 0x1F 0x12).executes = true ∧
    (stopped (code 0x1F 0x12)).canStep = true ∧ (stopped (code 0x1F 0x12)).executes = false := by decide

theorem witness_HaltedEngineStepDoesNothing :
    (raising (.engineStep true) (stopped s0)).nextEvent = .engineStep true ∧ (stopped s0).halted = true ∧
    ({ s0 with haltReq := true } : State).nextEvent = .engineStep false ∧
    ({ s0 with haltReq := true } : State).halted = false := by decide

theorem witness_BoundaryCheckHaltsExactlyOnItsConditions :
    ∀ s ∈ [code 0x1F 0x12, { code 0x1F 0x12 with bp := [0x4002] }, { code 0x1F 0x12 with stepPending := true },
        raising (.engineStep true) (code 0x1F 0x12)],
      (∃ signal, s.nextEvent = .engineStep signal) ∧ s.executes = true ∧ s.canStep = true := by decide

theorem witness_ProgramCannotSeeTheDebugger :
    (code 0x1F 0x12).programView =
      ({ code 0x1F 0x12 with bp := [0x4002], stepPending := true, ledger := 0 } : State).programView ∧
    (code 0x1F 0x12).nextEvent = .engineStep false ∧ (code 0x1F 0x12).executes = true ∧
    ({ code 0x1F 0x12 with bp := [0x4002], stepPending := true, ledger := 0 } : State).executes = true := by decide

theorem witness_DebugTransitionsAreExactlyTheseOnes :
    (code 0x1F 0x12).canStep = true ∧ (code 0x1F 0x12).halted = false ∧
    (raising (.command .continueRun) (stopped s0)).canStep = true ∧
    (raising (.command .singleStep) (stopped s0)).halted = true ∧
    (raising .coldReset s0).canStep = true ∧ (raising .coldReset s0).nextEvent = .coldReset := by decide

theorem witness_ContinueResumes :
    (raising (.command .continueRun) (stopped s0)).nextEvent = .command .continueRun ∧
    (raising (.command .continueRun) (stopped s0)).params.debugPresent = true ∧
    (raising (.command .continueRun) (stopped s0)).halted = true ∧ (stopped s0).haltReq = false ∧
    (raising (.command .continueRun) s0).halted = false := by decide

theorem witness_StepCommandExecutesOneInstruction :
    (∃ rest, ({ stopped (code 0x1F 0x15) with script := [.command .singleStep, .engineStep false] } : State).script =
      .command .singleStep :: .engineStep false :: rest) ∧
    (stopped (code 0x1F 0x15)).params.debugPresent = true ∧ (stopped (code 0x1F 0x15)).halted = true ∧
    (stopped (code 0x1F 0x15)).haltReq = false ∧
    decode (stopped (code 0x1F 0x15)).codeBytes = .ok (.tfr (.wide .x) (.wide .pc), []) ∧
    (raising (.command .singleStep) s0).halted = false ∧
    ({ code 0x1F 0x15 with stepPending := true } : State).executes = true ∧
    ({ code 0x1F 0x15 with stepPending := true } : State).canStep = true :=
  ⟨⟨_, rfl⟩, by decide⟩

theorem witness_ResumeAtABreakpointExecutesOnce :
    (∃ rest, ({ stopped (code 0x1F 0x12) with
        bp := [0x4000], script := [.command .continueRun, .engineStep true] } : State).script =
      .command .continueRun :: .engineStep true :: rest) ∧
    (stopped (code 0x1F 0x12)).params.debugPresent = true ∧ (stopped (code 0x1F 0x12)).haltReq = false ∧
    (stopped (code 0x1F 0x12)).PC ∈ [(0x4000 : Word)] ∧
    decode (stopped (code 0x1F 0x12)).codeBytes = .ok (.tfr (.wide .x) (.wide .y), []) :=
  ⟨⟨_, rfl⟩, by decide⟩

theorem witness_HaltSignalLatchesOrIsAbsorbed :
    (raising .haltSignal s0).nextEvent = .haltSignal ∧ s0.params.debugPresent = true ∧ s0.halted = false ∧
    (stopped s0).halted = true ∧ (debugless s0).params.debugPresent = false := by decide

theorem witness_CommandsWhileRunningAreNotProcessed :
    (raising (.command (.setBreakpoint 0x4002)) s0).nextEvent = .command (.setBreakpoint 0x4002) ∧
    Command.setBreakpoint 0x4002 ≠ .readRegisters ∧ (raising (.command .continueRun) s0).halted = false := by decide

theorem witness_BreakpointCommandsUpdateTheSet :
    (stopped s0).params.debugPresent = true ∧ (stopped s0).halted = true ∧ Breakpoints.wf [0x0000, 0x4002, 0xFFFF] ∧
    (raising (.command (.setBreakpoint 0xFFFF)) (stopped s0)).nextEvent = .command (.setBreakpoint 0xFFFF) ∧
    (raising (.command (.clearBreakpoint 0)) (stopped s0)).nextEvent = .command (.clearBreakpoint 0) ∧
    (0xFFFF : Word) ∈ [(0x0000 : Word), 0x4002, 0xFFFF] ∧ (0x4000 : Word) ∉ [(0x0000 : Word), 0x4002, 0xFFFF] := by
  decide

theorem witness_ReadRegistersReturnsTheSnapshot :
    (raising (.command .readRegisters) s0).nextEvent = .command .readRegisters ∧ s0.params.debugPresent = true := by
  decide

theorem witness_WriteRegisterWritesOneRegister :
    (raising (.command (.writeRegister (.wide .d) 0xBEEF)) (stopped s0)).nextEvent =
      .command (.writeRegister (.wide .d) 0xBEEF) ∧
    (stopped s0).params.debugPresent = true ∧ (stopped s0).halted = true ∧
    (Reg.wide .d).code.touches (.wide .x) = false := by decide

theorem witness_ReadMemoryReturnsTheBytesInOrder :
    (raising (.command (.readMemory 0xFFFF 2)) (stopped s0)).nextEvent = .command (.readMemory 0xFFFF 2) ∧
    (stopped s0).params.debugPresent = true ∧ (stopped s0).halted = true ∧ (stopped s0).readBound = true ∧
    (∀ k < 2, (stopped s0).isUnmapped (0xFFFF + BitVec.ofNat 16 k) = false) := by decide

theorem witness_WriteMemoryStoresTheBytes :
    (raising (.command (.writeMemory 0xFFFF [0x1F, 0x8A])) (stopped s0)).nextEvent =
      .command (.writeMemory 0xFFFF [0x1F, 0x8A]) ∧
    (stopped s0).params.debugPresent = true ∧ (stopped s0).halted = true ∧ (stopped s0).writeBound = true ∧
    Memory.wf (stopped s0).mem ∧ [(0x1F : Byte), 0x8A].length ≤ 65536 ∧
    (∀ k < [(0x1F : Byte), 0x8A].length, (stopped s0).isUnmapped (0xFFFF + BitVec.ofNat 16 k) = false) := by decide

theorem witness_FetchSeesTheWrittenCode :
    (raising (.command (.writeMemory 0x4000 [0x1F, 0x8A])) (stopped s0)).nextEvent =
      .command (.writeMemory (stopped s0).PC [0x1F, 0x8A]) ∧
    (stopped s0).params.debugPresent = true ∧ (stopped s0).halted = true ∧ (stopped s0).writeBound = true ∧
    (stopped s0).codeInMemory = true ∧ Memory.wf (stopped s0).mem := by decide

theorem witness_MalformedCommandIsAnErrorOnly :
    (raising (.command .malformed) s0).nextEvent = .command .malformed := by decide

theorem witness_ColdResetGivesTheResetValues : (raising .coldReset (stopped s0)).nextEvent = .coldReset := by decide

theorem witness_LedgerEventsReadAndClear :
    (raising .ledgerRead s0).nextEvent = .ledgerRead ∧ (raising .ledgerReset s0).nextEvent = .ledgerReset := by decide

theorem witness_LedgerChangesOnlyByInstructionsAndResets :
    (code 0x1E 0x01).canStep = true ∧ (code 0x1E 0x01).nextEvent = .engineStep false ∧
    (code 0x1E 0x01).executes = true ∧
    (raising .ledgerReset s0).canStep = true ∧ (raising .coldReset s0).canStep = true ∧
    (stopped s0).canStep = true ∧ (stopped s0).executes = false ∧
    (raising (.command .readRegisters) s0).canStep = true := by decide

theorem witness_RegistersHaveOneWriterPerState :
    afterStep (code 0x1E 0x01) (fun t => t.snapshot != s0.snapshot) = true ∧
    afterStep (raising (.command (.writeRegister (.wide .s) 7)) (stopped s0)) (fun t => t.snapshot != s0.snapshot) = true ∧
    afterStep (raising .coldReset s0) (fun t => t.snapshot != s0.snapshot) = true := by decide

theorem witness_MemoryAndBreakpointsChangeOnlyByTheirCommands :
    afterStep (raising (.command (.writeMemory 0xFFFF [1, 2])) (stopped s0)) (fun t => t.mem != s0.mem) = true ∧
    afterStep (raising (.command (.setBreakpoint 7)) (stopped s0)) (fun t => t.bp != s0.bp) = true := by decide

theorem witness_ParametersAndEnvironmentAreFixed : (code 0x1F 0x12).canStep = true := by decide

theorem witness_UnboundPortsAnswerTheDefault :
    ({ s0 with readBound := false } : State).readBound = false ∧
    ({ s0 with writeBound := false } : State).writeBound = false := by decide

theorem witness_UnmappedReadDrawsAFreshByte :
    s0.readBound = true ∧
    ({ s0 with unmapped := [{ first := 0xFF00, last := 0xFFFF }] } : State).isUnmapped 0xFF00 = true ∧
    ({ s0 with unmapped := [{ first := 0xFF00, last := 0xFFFF }] } : State).isUnmapped 0xFFFF = true ∧
    ({ s0 with unmapped := [{ first := 0xFF00, last := 0xFFFF }] } : State).isUnmapped 0xFEFF = false := by decide

theorem witness_EveryStepKeepsTheInvariant :
    { code 0x1E 0x01 with bp := [0x4002, 0x5678] }.Inv ∧
    State.canStep { code 0x1E 0x01 with bp := [0x4002, 0x5678] } = true :=
  ⟨⟨by decide, by decide, by decide, by decide, by decide, by decide⟩, by decide⟩

theorem witness_WithoutDebuggerTheEngineAlwaysRuns :
    (debugless (code 0x1E 0x01)).Inv ∧ (debugless (code 0x1E 0x01)).params.debugPresent = false ∧
    (debugless (code 0x1E 0x01)).canStep = true ∧
    (raising .haltSignal (debugless s0)).canStep = true ∧
    (raising (.command .continueRun) (debugless s0)).canStep = true :=
  ⟨⟨by decide, by decide, by decide, by decide, by decide, by decide⟩, by decide, by decide, by decide, by decide⟩

theorem witness_PlacedWordRunsNext :
    Memory.wf s0.mem ∧ decodeTableWord 16 0x1E89 = some (.exg (.narrow .a) (.narrow .b)) ∧
    decodeTableWord 8 0x1F = some (.tfr (.wide .d) (.wide .d)) := by decide

end Sys2Proof.Machine.Tests
end

namespace Sys2Proof.Machine

/-! What no operation of the block changes: the parameters, the two port bindings, the map and the host's list
(00_scope.md R2, R3; 70_reset_and_hazards.md R164). One lemma per operation, then the step. -/

/-- What the host fixes around the block: parameters, bindings of the two bus ports, map, and the events still to come. -/
def State.environment (s : State) : Params × Bool × Bool × List AddrRange × List Event :=
  (s.params, s.readBound, s.writeBound, s.unmapped, s.script)

theorem environment_eq_iff (s t : State) :
    t.environment = s.environment ↔ t.params = s.params ∧ t.readBound = s.readBound ∧ t.writeBound = s.writeBound ∧
      t.unmapped = s.unmapped ∧ t.script = s.script := by
  simp [State.environment]

@[simp] theorem account_environment (n : Nat) (s : State) : (account n s).environment = s.environment := rfl

@[simp] theorem returnResult_environment (s : State) : (returnResult s).environment = s.environment := rfl

@[simp] theorem goHalted_environment (s : State) : (goHalted s).environment = s.environment :=
  (congrArg State.environment (goHalted_frame s)).trans rfl

@[simp] theorem entry_environment (s : State) : (entry s).environment = s.environment := by
  unfold entry
  split
  · exact goHalted_environment s
  · rfl

@[simp] theorem haltSignal_environment (s : State) : (haltSignal s).environment = s.environment :=
  (congrArg State.environment (haltSignal_frame s)).trans rfl

@[simp] theorem arrive_environment (signal : Bool) (s : State) : (arrive signal s).environment = s.environment :=
  (congrArg State.environment (arrive_frame signal s)).trans rfl

@[simp] theorem boundaryCheck_environment (s : State) : (boundaryCheck s).environment = s.environment :=
  (congrArg State.environment (boundaryCheck_frame s)).trans rfl

@[simp] theorem afterFetch_environment (s : State) : s.afterFetch.environment = s.environment :=
  (congrArg State.environment (afterFetch_frame s)).trans rfl

theorem sameButRegisters_environment {s t : State} (h : sameButRegisters s t) : t.environment = s.environment :=
  (congrArg State.environment h).trans rfl

@[simp] theorem writeReg_environment (r : Reg) (v : Nat) (s : State) : (writeReg r v s).environment = s.environment :=
  sameButRegisters_environment (writeReg_sameButRegisters r v s)

@[simp] theorem readBytes_environment (n : Nat) (a : Word) (s : State) :
    (readBytes n a s).2.environment = s.environment :=
  (congrArg State.environment (readBytes_frame n a s)).trans rfl

@[simp] theorem writeBytes_environment (bs : List Byte) (a : Word) (s : State) :
    (writeBytes bs a s).environment = s.environment :=
  (congrArg State.environment (writeBytes_frame bs a s)).trans rfl

theorem exec_environment {i : Instr} {s t : State} (h : exec i s = .next t) : t.environment = s.environment := by
  obtain ⟨u, hu, hsame⟩ := exec_spec i s
  rw [hu] at h
  cases h
  exact (account_environment _ u).trans (sameButRegisters_environment hsame)

theorem runInstruction_environment {s t : State} (h : runInstruction s = .next t) :
    t.environment = s.environment := by
  obtain ⟨hd, -, hexec⟩ := runInstruction_cases h
  exact (exec_environment hexec).trans (afterFetch_environment s)

theorem engineStep_environment {signal : Bool} {s t : State} (h : engineStep signal s = .next t) :
    t.environment = s.environment := by
  obtain ⟨-, rfl, -⟩ | ⟨-, u, hu, rfl⟩ := engineStep_cases h
  · simp
  · simpa using runInstruction_environment hu

theorem whileHalted_environment {s t : State} (h : t.environment = s.environment) :
    (whileHalted s t).environment = s.environment := by
  unfold whileHalted
  split
  · exact h
  · rfl

@[simp] theorem runCommand_environment (c : Command) (s : State) : (runCommand c s).environment = s.environment := by
  unfold runCommand
  split
  · rfl
  · cases c with
    | setBreakpoint a => exact whileHalted_environment rfl
    | clearBreakpoint a => exact whileHalted_environment rfl
    | singleStep => exact whileHalted_environment rfl
    | continueRun => exact whileHalted_environment rfl
    | readRegisters => rfl
    | writeRegister r v => exact whileHalted_environment (writeReg_environment r v s)
    | readMemory a n => exact whileHalted_environment (readBytes_environment n a s)
    | writeMemory a bs => exact whileHalted_environment (writeBytes_environment bs a s)
    | malformed => rfl

/-- A step changes nothing of the environment but the event it takes from the host's list. -/
theorem step_environment {s t : State} (h : step s = .next t) : t.environment = s.takeEvent.environment := by
  obtain ⟨signal, -, he⟩ | ⟨-, rfl⟩ | ⟨-, rfl⟩ | ⟨c, -, rfl⟩ | ⟨-, rfl⟩ | ⟨-, rfl⟩ := step_cases h
  · exact engineStep_environment he
  · rfl
  · exact haltSignal_environment _
  · exact runCommand_environment c _
  · rfl
  · rfl

/-- Settles O47: no operation of the block writes the environment, and `takeEvent` drops one event of the host's list. -/
theorem parametersAndEnvironmentAreFixed : Obligations.ParametersAndEnvironmentAreFixed := by
  unfold Obligations.ParametersAndEnvironmentAreFixed
  intro s t h
  exact (environment_eq_iff s.takeEvent t).mp (step_environment h)

/-- Settles O50: at reset memory, BP and LEDGER are empty, R3's default width is 64, and the controller is Running with both
latches clear. -/
theorem invariantHoldsAtReset : Obligations.InvariantHoldsAtReset where
  memory := by decide
  bpSet := by decide
  width := by decide
  ledgerIn := by decide
  latches := by decide
  absent := by decide

end Sys2Proof.Machine

namespace Sys2Proof.Machine

/-! What one instruction and one debug command can do (40_dispatch.md R82 to R85; 60_exceptions.md R134), said once for the
invariant, LEDGER and the registers. -/

/-- The bytes at PC decode as soon as the first one selects a handler. -/
theorem decode_codeBytes {s : State} {hd : Handler} (h : select (fetchByte s).1 = .handler hd) :
    decode s.codeBytes = .ok (hd.instr (fetchByte (fetchByte s).2).1, []) := by
  simp [State.codeBytes, decode, h]

/-- Running an instruction decodes the bytes at PC, changes registers after the fetches, and charges the cost. -/
theorem runInstruction_spec {s t : State} (h : runInstruction s = .next t) :
    ∃ i u, decode s.codeBytes = .ok (i, []) ∧ sameButRegisters s.afterFetch u ∧ t = account (instrCost i) u := by
  obtain ⟨hd, hsel, hexec⟩ := runInstruction_cases h
  obtain ⟨u, hu, hsame⟩ := exec_spec (hd.instr (fetchByte (fetchByte s).2).1) s.afterFetch
  rw [hu] at hexec
  cases hexec
  exact ⟨_, u, decode_codeBytes hsel, hsame, rfl⟩

/-- The state a command leads to where it is honoured, before its answer is observed. -/
def Command.effect : Command → State → State
  | .setBreakpoint a, s   => { s with bp := Breakpoints.insert s.bp a }
  | .clearBreakpoint a, s => { s with bp := Breakpoints.remove s.bp a }
  | .singleStep, s        => goRunning true s
  | .continueRun, s       => goRunning false s
  | .readRegisters, s     => s
  | .writeRegister r v, s => writeReg r v s
  | .readMemory a n, s    => (readBytes n a s).2
  | .writeMemory a bs, s  => writeBytes bs a s
  | .malformed, s         => s

/-- A command honoured only while Halted is answered with an error, or the controller is Halted and it takes effect. -/
theorem whileHalted_cases (s t : State) :
    whileHalted s t = s.observe (.reply .error) ∨ (s.halted = true ∧ whileHalted s t = t) := by
  unfold whileHalted
  split
  · exact .inr ⟨‹_›, rfl⟩
  · exact .inl rfl

/-- With the debug subsystem present a command only gives an answer, or it is one of those honoured while Halted. -/
theorem runCommand_of_debugPresent {s : State} (hp : s.params.debugPresent = true) (c : Command) :
    ∃ r, runCommand c s = s.observe (.reply r) ∨
      runCommand c s = whileHalted s ((c.effect s).observe (.reply r)) := by
  cases c with
  | readRegisters => exact ⟨.registers s.snapshot, .inl (by simp [runCommand, hp])⟩
  | malformed => exact ⟨.error, .inl (by simp [runCommand, hp])⟩
  | _ => exact ⟨_, .inr (by simp only [runCommand, hp]; rfl)⟩

/-- What a command can do: give an answer only, or take effect while Halted with the debug subsystem present. -/
theorem runCommand_cases (c : Command) (s : State) :
    ∃ r, runCommand c s = s.observe (.reply r) ∨
      (s.params.debugPresent = true ∧ s.halted = true ∧ runCommand c s = (c.effect s).observe (.reply r)) := by
  by_cases hp : s.params.debugPresent = true
  · obtain ⟨r, he | he⟩ := runCommand_of_debugPresent hp c
    · exact ⟨r, .inl he⟩
    · rcases whileHalted_cases s ((c.effect s).observe (.reply r)) with hw | ⟨hh, hw⟩
      · exact ⟨.error, .inl (he.trans hw)⟩
      · exact ⟨r, .inr ⟨hp, hh, he.trans hw⟩⟩
  · exact ⟨.error, .inl (by simp [runCommand, hp])⟩

end Sys2Proof.Machine

namespace Sys2Proof.Machine

/-! The invariant, operation by operation (10_state.md R20 to R25; 60_exceptions.md R126, R128, R143), then the step. -/

/-- The fields the invariant speaks of. -/
def State.invView (s : State) : Memory × Breakpoints × Params × Nat × Bool × Bool × Bool :=
  (s.mem, s.bp, s.params, s.ledger, s.halted, s.stepPending, s.haltReq)

/-- The invariant depends on those fields only. -/
theorem State.Inv.congr {s t : State} (h : s.Inv) (e : t.invView = s.invView) : t.Inv := by
  simp only [State.invView, Prod.mk.injEq] at e
  obtain ⟨hm, hb, hp, hl, hh, hs, hr⟩ := e
  constructor
  · rw [hm]; exact h.memory
  · rw [hb]; exact h.bpSet
  · rw [hp]; exact h.width
  · rw [hl, hp]; exact h.ledgerIn
  · rw [hh, hs, hr]; exact h.latches
  · rw [hp, hb, hh, hs, hr]; exact h.absent

theorem State.Inv.observe {s : State} (h : s.Inv) (o : Observation) : (s.observe o).Inv := h.congr rfl

theorem State.Inv.returnResult {s : State} (h : s.Inv) : (returnResult s).Inv := h.observe _

theorem State.Inv.takeEvent {s : State} (h : s.Inv) : s.takeEvent.Inv := h.congr rfl

theorem State.Inv.afterFetch {s : State} (h : s.Inv) : s.afterFetch.Inv :=
  h.congr ((congrArg State.invView (afterFetch_frame s)).trans rfl)

theorem State.Inv.of_sameButRegisters {s t : State} (h : s.Inv) (hsame : sameButRegisters s t) : t.Inv :=
  h.congr ((congrArg State.invView hsame).trans rfl)

/-- LEDGER stays within its width, since a charge is reduced modulo 2^`LEDGER_BITS`. -/
theorem State.Inv.account {s : State} (h : s.Inv) (n : Nat) : (account n s).Inv :=
  { h with ledgerIn := Nat.mod_lt _ (Nat.two_pow_pos _) }

/-- Where a halt condition holds the debug subsystem is present: without it BP is empty and the latches are clear. -/
theorem State.Inv.debugPresent_of_haltCondition {s : State} (h : s.Inv) (hc : haltCondition s = true) :
    s.params.debugPresent = true := by
  by_contra hp
  obtain ⟨hbp, -, hstep, hreq⟩ := h.absent (by simpa using hp)
  simp [haltCondition, hbp, hstep, hreq] at hc

/-- Going to Halted clears both latches, so it keeps the invariant where the debug subsystem is present. -/
theorem State.Inv.goHalted {s : State} (h : s.Inv) (hp : s.params.debugPresent = true) : (goHalted s).Inv := by
  constructor
  · simpa using h.memory
  · simpa using h.bpSet
  · simpa using h.width
  · simpa using h.ledgerIn
  · simp
  · simp [hp]

theorem State.Inv.entry {s : State} (h : s.Inv) : (entry s).Inv := by
  unfold Machine.entry
  split
  · rename_i hr
    simp only [Bool.and_eq_true] at hr
    exact h.goHalted (h.debugPresent_of_haltCondition (by simp [haltCondition, hr.2]))
  · exact h

theorem State.Inv.boundaryCheck {s : State} (h : s.Inv) : (boundaryCheck s).Inv := by
  unfold Machine.boundaryCheck
  split
  · exact h.goHalted (h.debugPresent_of_haltCondition ‹_›)
  · exact h

/-- A halt request is latched only while Running with the debug subsystem present. -/
theorem State.Inv.haltSignal {s : State} (h : s.Inv) : (haltSignal s).Inv := by
  unfold Machine.haltSignal
  split
  · exact h
  · split
    · exact h.observe _
    · rename_i hp hh
      exact { h with latches := fun he => absurd he hh, absent := fun he => absurd he (by simpa using hp) }

theorem State.Inv.arrive {s : State} (h : s.Inv) (signal : Bool) : (arrive signal s).Inv := by
  cases signal
  · exact h
  · exact h.haltSignal

theorem State.Inv.runInstruction {s t : State} (h : s.Inv) (hrun : runInstruction s = .next t) : t.Inv := by
  obtain ⟨i, u, -, hsame, rfl⟩ := runInstruction_spec hrun
  exact (h.afterFetch.of_sameButRegisters hsame).account (instrCost i)

theorem State.Inv.engineStep {signal : Bool} {s t : State} (h : s.Inv) (hstep : engineStep signal s = .next t) :
    t.Inv := by
  obtain ⟨-, rfl, -⟩ | ⟨-, u, hu, rfl⟩ := engineStep_cases hstep
  · exact (h.entry.arrive signal).returnResult
  · exact ((h.runInstruction hu).arrive signal).boundaryCheck.returnResult

/-- Return from Halted keeps the invariant: the halt request latch was clear, and the debug subsystem is present. -/
theorem State.Inv.goRunning {s : State} (h : s.Inv) (hp : s.params.debugPresent = true) (b : Bool) :
    (goRunning b s).Inv :=
  { h with latches := by simp, absent := by simp [hp] }

/-- A change of BP that keeps its canonical form keeps the invariant where the debug subsystem is present. -/
theorem State.Inv.withBp {s : State} (h : s.Inv) (hp : s.params.debugPresent = true) {b : Breakpoints}
    (hb : Breakpoints.wf b) : ({ s with bp := b } : State).Inv :=
  { h with bpSet := hb, absent := by simp [hp] }

theorem State.Inv.writeBytes {s : State} (h : s.Inv) (bs : List Byte) (a : Word) : (writeBytes bs a s).Inv := by
  have hm := writeBytes_wf h.memory bs a
  rw [writeBytes_frame] at hm ⊢
  exact { h with memory := hm }

theorem State.Inv.readBytes {s : State} (h : s.Inv) (n : Nat) (a : Word) : (readBytes n a s).2.Inv :=
  h.congr ((congrArg State.invView (readBytes_frame n a s)).trans rfl)

theorem State.Inv.commandEffect {s : State} (h : s.Inv) (hp : s.params.debugPresent = true) (c : Command) :
    (c.effect s).Inv := by
  cases c with
  | setBreakpoint a => exact h.withBp hp (Breakpoints.insert_wf h.bpSet a)
  | clearBreakpoint a => exact h.withBp hp (Breakpoints.remove_wf h.bpSet a)
  | singleStep => exact h.goRunning hp true
  | continueRun => exact h.goRunning hp false
  | readRegisters => exact h
  | writeRegister r v => exact h.of_sameButRegisters (writeReg_sameButRegisters r v s)
  | readMemory a n => exact h.readBytes n a
  | writeMemory a bs => exact h.writeBytes bs a
  | malformed => exact h

theorem State.Inv.runCommand {s : State} (h : s.Inv) (c : Command) : (runCommand c s).Inv := by
  obtain ⟨r, he | ⟨hp, -, he⟩⟩ := runCommand_cases c s
  · rw [he]; exact h.observe _
  · rw [he]; exact (h.commandEffect hp c).observe _

theorem State.Inv.ledgerReset {s : State} (h : s.Inv) : (ledgerReset s).Inv :=
  { h with ledgerIn := Nat.two_pow_pos _ }

theorem State.Inv.coldReset {s : State} (h : s.Inv) : (coldReset s).Inv where
  memory := h.memory
  bpSet := List.Pairwise.nil
  width := h.width
  ledgerIn := Nat.two_pow_pos _
  latches _ := ⟨rfl, rfl⟩
  absent _ := ⟨rfl, rfl, rfl, rfl⟩

/-- Settles O51: every event is one operation, and each operation keeps the invariant. -/
theorem everyStepKeepsTheInvariant : Obligations.EveryStepKeepsTheInvariant := by
  intro s t h hstep
  obtain ⟨signal, -, he⟩ | ⟨-, rfl⟩ | ⟨-, rfl⟩ | ⟨c, -, rfl⟩ | ⟨-, rfl⟩ | ⟨-, rfl⟩ := step_cases hstep
  · exact h.takeEvent.engineStep he
  · exact h.takeEvent.coldReset
  · exact h.takeEvent.haltSignal
  · exact h.takeEvent.runCommand c
  · exact h.takeEvent.observe _
  · exact h.takeEvent.ledgerReset

end Sys2Proof.Machine

namespace Sys2Proof.Machine

/-! Which operations leave LEDGER (10_state.md R20) and which leave every register (10_state.md R26): one lemma per
operation, then the step. -/

@[simp] theorem entry_ledger (s : State) : (entry s).ledger = s.ledger := by
  unfold entry
  split
  · exact goHalted_ledger s
  · rfl

@[simp] theorem haltSignal_ledger (s : State) : (haltSignal s).ledger = s.ledger :=
  (congrArg State.ledger (haltSignal_frame s)).trans rfl

@[simp] theorem arrive_ledger (signal : Bool) (s : State) : (arrive signal s).ledger = s.ledger :=
  (congrArg State.ledger (arrive_frame signal s)).trans rfl

@[simp] theorem boundaryCheck_ledger (s : State) : (boundaryCheck s).ledger = s.ledger :=
  (congrArg State.ledger (boundaryCheck_frame s)).trans rfl

@[simp] theorem afterFetch_ledger (s : State) : s.afterFetch.ledger = s.ledger :=
  (congrArg State.ledger (afterFetch_frame s)).trans rfl

@[simp] theorem afterFetch_params (s : State) : s.afterFetch.params = s.params :=
  (congrArg State.params (afterFetch_frame s)).trans rfl

theorem sameButRegisters_ledger {s t : State} (h : sameButRegisters s t) : t.ledger = s.ledger :=
  (congrArg State.ledger h).trans rfl

theorem sameButRegisters_params {s t : State} (h : sameButRegisters s t) : t.params = s.params :=
  (congrArg State.params h).trans rfl

@[simp] theorem commandEffect_ledger (c : Command) (s : State) : (c.effect s).ledger = s.ledger := by
  cases c with
  | writeRegister r v => exact writeReg_ledger r v s
  | readMemory a n => exact (congrArg State.ledger (readBytes_frame n a s)).trans rfl
  | writeMemory a bs => exact (congrArg State.ledger (writeBytes_frame bs a s)).trans rfl
  | _ => rfl

@[simp] theorem runCommand_ledger (c : Command) (s : State) : (runCommand c s).ledger = s.ledger := by
  obtain ⟨r, he | ⟨-, -, he⟩⟩ := runCommand_cases c s <;> simp [he]

/-- Running an instruction adds the cost of the decoded instruction to LEDGER. -/
theorem runInstruction_ledger {s t : State} (h : runInstruction s = .next t) :
    ∃ i, decode s.codeBytes = .ok (i, []) ∧ t.ledger = (s.ledger + instrCost i) % 2 ^ s.params.ledgerBits := by
  obtain ⟨i, u, hdec, hsame, rfl⟩ := runInstruction_spec h
  exact ⟨i, hdec, by simp [sameButRegisters_ledger hsame, sameButRegisters_params hsame]⟩

/-- An `EngineStep` that executes charges the decoded instruction. -/
theorem engineStep_ledger_of_executes {signal : Bool} {s t : State} (hx : s.executes = true)
    (h : engineStep signal s = .next t) :
    ∃ i, decode s.codeBytes = .ok (i, []) ∧ t.ledger = (s.ledger + instrCost i) % 2 ^ s.params.ledgerBits := by
  obtain ⟨hnx, -⟩ | ⟨-, u, hu, rfl⟩ := engineStep_cases h
  · simp [hx] at hnx
  · simpa using runInstruction_ledger hu

/-- An `EngineStep` that Entry ends charges nothing. -/
theorem engineStep_ledger_of_not_executes {signal : Bool} {s t : State} (hx : s.executes = false)
    (h : engineStep signal s = .next t) : t.ledger = s.ledger := by
  rw [engineStep_of_not_executes hx] at h
  cases h
  simp

/-- Settles O44: an `EngineStep` charges exactly when it executes, the two resets clear LEDGER, and no other event writes
it. -/
theorem ledgerChangesOnlyByInstructionsAndResets : Obligations.LedgerChangesOnlyByInstructionsAndResets := by
  intro s t h
  obtain ⟨signal, hev, he⟩ | ⟨hev, rfl⟩ | ⟨hev, rfl⟩ | ⟨c, hev, rfl⟩ | ⟨hev, rfl⟩ | ⟨hev, rfl⟩ := step_cases h
  · refine ⟨fun _ _ hx => ?_, by simp [hev], fun hx _ _ => ?_⟩
    · simpa using engineStep_ledger_of_executes (s := s.takeEvent) hx he
    · exact engineStep_ledger_of_not_executes (s := s.takeEvent) (hx ⟨signal, hev⟩) he
  · simp [hev, coldReset]
  · simp [hev]
  · simp [hev]
  · simp [hev, ledgerRead]
  · simp [hev, ledgerReset]

@[simp] theorem goHalted_snapshot (s : State) : (goHalted s).snapshot = s.snapshot :=
  (congrArg State.snapshot (goHalted_frame s)).trans rfl

@[simp] theorem entry_snapshot (s : State) : (entry s).snapshot = s.snapshot := by
  unfold entry
  split
  · exact goHalted_snapshot s
  · rfl

@[simp] theorem haltSignal_snapshot (s : State) : (haltSignal s).snapshot = s.snapshot :=
  (congrArg State.snapshot (haltSignal_frame s)).trans rfl

@[simp] theorem arrive_snapshot (signal : Bool) (s : State) : (arrive signal s).snapshot = s.snapshot :=
  (congrArg State.snapshot (arrive_frame signal s)).trans rfl

/-- Where Entry ends an `EngineStep`, no register changes. -/
theorem engineStep_snapshot_of_not_executes {signal : Bool} {s t : State} (hx : s.executes = false)
    (h : engineStep signal s = .next t) : t.snapshot = s.snapshot := by
  rw [engineStep_of_not_executes hx] at h
  cases h
  exact (arrive_snapshot signal (entry s)).trans (entry_snapshot s)

/-- The only command that can change a register is `WriteRegister`. -/
theorem commandEffect_snapshot {c : Command} (hc : ∀ r v, c ≠ .writeRegister r v) (s : State) :
    (c.effect s).snapshot = s.snapshot := by
  cases c with
  | writeRegister r v => exact absurd rfl (hc r v)
  | readMemory a n => exact (congrArg State.snapshot (readBytes_frame n a s)).trans rfl
  | writeMemory a bs => exact (congrArg State.snapshot (writeBytes_frame bs a s)).trans rfl
  | _ => rfl

/-- A command that changes a register is `WriteRegister` while Halted. -/
theorem writeRegister_of_runCommand_snapshot_ne {c : Command} {s : State}
    (h : (runCommand c s).snapshot ≠ s.snapshot) : s.halted = true ∧ ∃ r v, c = .writeRegister r v := by
  obtain ⟨r, he | ⟨-, hh, he⟩⟩ := runCommand_cases c s
  · rw [he] at h
    exact absurd rfl h
  · refine ⟨hh, ?_⟩
    by_contra hc
    push Not at hc
    rw [he] at h
    exact h (commandEffect_snapshot hc s)

/-- Settles O45: of the operations behind the six events, only a run instruction, `WriteRegister` and `ColdReset` write a
register. -/
theorem registersHaveOneWriterPerState : Obligations.RegistersHaveOneWriterPerState := by
  intro s t h hne
  obtain ⟨signal, hev, he⟩ | ⟨hev, rfl⟩ | ⟨hev, rfl⟩ | ⟨c, hev, rfl⟩ | ⟨hev, rfl⟩ | ⟨hev, rfl⟩ := step_cases h
  · cases hx : s.executes with
    | false => exact absurd (engineStep_snapshot_of_not_executes (s := s.takeEvent) hx he) hne
    | true =>
      have hrun : s.halted = false := by
        simp only [State.executes, Bool.and_eq_true, Bool.not_eq_true'] at hx
        exact hx.1
      exact .inl ⟨hrun, rfl, signal, hev⟩
  · exact .inr (.inr hev)
  · exact absurd (haltSignal_snapshot s.takeEvent) hne
  · obtain ⟨hh, r, v, rfl⟩ := writeRegister_of_runCommand_snapshot_ne (s := s.takeEvent) hne
    exact .inr (.inl ⟨hh, r, v, hev⟩)
  · exact absurd rfl hne
  · exact absurd rfl hne

end Sys2Proof.Machine

namespace Sys2Proof.Machine

/-! The register file and LEDGER by themselves (10_state.md R11, R17, R18, R21, R29, R30). -/

theorem get16_d_set8_a (v : Byte) (s : State) : get16 .d (set8 .a v s) = concat v s.B := rfl

theorem get16_d_set8_b (v : Byte) (s : State) : get16 .d (set8 .b v s) = concat s.A v := rfl

/-- Settles O7: D is `concat A B`, and a byte taken from a concatenation is the half it came from. -/
theorem dIsTheViewOfAAndB : Obligations.DIsTheViewOfAAndB := by
  refine ⟨rfl, fun s => ⟨getD_toNat s, fun v => ?_, fun v => rfl, fun v => ?_, fun v => ?_⟩⟩
  · exact ⟨rfl, highByte_toNat v, lowByte_toNat v, get16_set16 .d v s⟩
  · rw [get16_d_set8_a]
    exact ⟨highByte_concat v s.B, (lowByte_concat v s.B).trans (lowByte_concat s.A s.B).symm⟩
  · rw [get16_d_set8_b]
    exact ⟨lowByte_concat s.A v, (highByte_concat s.A v).trans (highByte_concat s.A s.B).symm⟩

/-- Settles O8: a register is a bit vector of its width, and a write reduces the value to it. -/
theorem registerWritesTruncate : Obligations.RegisterWritesTruncate := fun s v =>
  ⟨fun r => ⟨(get16 r s).isLt, readReg_writeReg (.wide r) v s⟩,
    fun r => ⟨(get8 r s).isLt, readReg_writeReg (.narrow r) v s⟩⟩

/-- A write of a register leaves every register it does not touch. -/
theorem readReg_writeReg_of_not_touches {r r' : Reg} (h : r.code.touches r' = false) (v : Nat) (s : State) :
    readReg r' (writeReg r v s) = readReg r' s := by
  cases r with
  | wide r => exact readReg_set16 h _ s
  | narrow r => exact readReg_set8 h _ s

/-- Settles O9: the write's frame, register by register and for the rest of the state. -/
theorem registerWriteChangesThatRegisterOnly : Obligations.RegisterWriteChangesThatRegisterOnly := fun r v s =>
  ⟨fun _ h => readReg_writeReg_of_not_touches h v s, writeReg_sameButRegisters r v s⟩

/-- Settles O41: the step takes the event and resets the block; R3's defaults are a fixed point of the reset. -/
theorem coldResetGivesTheResetValues : Obligations.ColdResetGivesTheResetValues :=
  ⟨fun _ hev => step_of_event hev, rfl, rfl⟩

/-- Settles O42: a charge is that sum reduced modulo a power of two, which is positive. -/
theorem ledgerAdditionWraps : Obligations.LedgerAdditionWraps := fun n s =>
  ⟨rfl, (account_ledger n s).trans_lt (Nat.mod_lt _ (Nat.two_pow_pos _))⟩

end Sys2Proof.Machine

namespace Sys2Proof.Machine

/-! The bus ports by themselves (20_memory.md R43, R44). -/

/-- Any number of reads on an unbound port answer zero each and change nothing. -/
theorem readBytes_unbound {s : State} (hb : s.readBound = false) (n : Nat) (a : Word) :
    readBytes n a s = (List.replicate n 0, s) := by
  induction n generalizing a with
  | zero => rfl
  | succ n ih => simp only [readBytes, busRead_unbound hb, ih, List.replicate_succ]

theorem busWrite_unbound {s : State} (hb : s.writeBound = false) (a : Word) (v : Byte) : busWrite a v s = s := by
  simp [busWrite, hb]

/-- Any number of writes on an unbound port change nothing. -/
theorem writeBytes_unbound {s : State} (hb : s.writeBound = false) (bs : List Byte) (a : Word) :
    writeBytes bs a s = s := by
  induction bs generalizing a with
  | nil => rfl
  | cons v bs ih => rw [writeBytes, busWrite_unbound hb, ih]

/-- Settles O48: an access on an unbound port leaves the state, so a range of them does, by induction on its length. -/
theorem unboundPortsAnswerTheDefault : Obligations.UnboundPortsAnswerTheDefault := fun _ a =>
  ⟨fun hb => ⟨busRead_unbound hb, fun n => readBytes_unbound hb n a⟩,
    fun hb => ⟨busWrite_unbound hb a, fun bs => writeBytes_unbound hb bs a⟩⟩

/-- Settles O49: the read's equation where nothing is mapped, with the observation written out. -/
theorem unmappedReadDrawsAFreshByte : Obligations.UnmappedReadDrawsAFreshByte := fun _ _ hb hu =>
  busRead_unmapped hb hu

end Sys2Proof.Machine

namespace Sys2Proof.Machine

/-! Which operations leave memory and BP (20_memory.md R42; 10_state.md R22): the engine leaves both, a command leaves
what it is not for. -/

/-- Memory and BP, which no `EngineStep` writes. -/
def State.memAndBp (s : State) : Memory × Breakpoints := (s.mem, s.bp)

theorem entry_memAndBp (s : State) : (entry s).memAndBp = s.memAndBp := by
  unfold entry
  split
  · exact (congrArg State.memAndBp (goHalted_frame s)).trans rfl
  · rfl

theorem haltSignal_memAndBp (s : State) : (haltSignal s).memAndBp = s.memAndBp :=
  (congrArg State.memAndBp (haltSignal_frame s)).trans rfl

theorem arrive_memAndBp (signal : Bool) (s : State) : (arrive signal s).memAndBp = s.memAndBp :=
  (congrArg State.memAndBp (arrive_frame signal s)).trans rfl

theorem finish_memAndBp (signal : Bool) (s : State) :
    (returnResult (boundaryCheck (arrive signal s))).memAndBp = s.memAndBp :=
  (congrArg State.memAndBp (finish_frame signal s)).trans rfl

/-- An instruction reads the bus and writes registers and LEDGER only. -/
theorem runInstruction_memAndBp {s t : State} (h : runInstruction s = .next t) : t.memAndBp = s.memAndBp := by
  obtain ⟨i, u, -, hsame, rfl⟩ := runInstruction_spec h
  calc (account (instrCost i) u).memAndBp
    _ = u.memAndBp := rfl
    _ = s.afterFetch.memAndBp := (congrArg State.memAndBp hsame).trans rfl
    _ = s.memAndBp := (congrArg State.memAndBp (afterFetch_frame s)).trans rfl

theorem engineStep_memAndBp {signal : Bool} {s t : State} (h : engineStep signal s = .next t) :
    t.memAndBp = s.memAndBp := by
  obtain ⟨-, rfl, -⟩ | ⟨-, u, hu, rfl⟩ := engineStep_cases h
  · exact (arrive_memAndBp signal (entry s)).trans (entry_memAndBp s)
  · exact (finish_memAndBp signal u).trans (runInstruction_memAndBp hu)

/-- The only command that can change memory is `WriteMemory`. -/
theorem commandEffect_mem {c : Command} (hc : ∀ a bs, c ≠ .writeMemory a bs) (s : State) :
    (c.effect s).mem = s.mem := by
  cases c with
  | writeRegister r v => exact writeReg_mem r v s
  | readMemory a n => exact (congrArg State.mem (readBytes_frame n a s)).trans rfl
  | writeMemory a bs => exact absurd rfl (hc a bs)
  | _ => rfl

/-- The only commands that can change BP are `SetBreakpoint` and `ClearBreakpoint`. -/
theorem commandEffect_bp {c : Command} (hc : ∀ a, c ≠ .setBreakpoint a ∧ c ≠ .clearBreakpoint a) (s : State) :
    (c.effect s).bp = s.bp := by
  cases c with
  | setBreakpoint a => exact absurd rfl (hc a).1
  | clearBreakpoint a => exact absurd rfl (hc a).2
  | writeRegister r v => exact writeReg_bp r v s
  | readMemory a n => exact (congrArg State.bp (readBytes_frame n a s)).trans rfl
  | writeMemory a bs => exact (congrArg State.bp (writeBytes_frame bs a s)).trans rfl
  | _ => rfl

/-- A command that changes memory is `WriteMemory` while Halted. -/
theorem writeMemory_of_runCommand_mem_ne {c : Command} {s : State} (h : (runCommand c s).mem ≠ s.mem) :
    s.halted = true ∧ ∃ a bs, c = .writeMemory a bs := by
  obtain ⟨r, he | ⟨-, hh, he⟩⟩ := runCommand_cases c s
  · exact absurd (congrArg State.mem he) h
  · refine ⟨hh, ?_⟩
    by_contra hc
    push Not at hc
    exact h ((congrArg State.mem he).trans (commandEffect_mem hc s))

/-- A command that changes BP is `SetBreakpoint` or `ClearBreakpoint` while Halted. -/
theorem breakpointCommand_of_runCommand_bp_ne {c : Command} {s : State} (h : (runCommand c s).bp ≠ s.bp) :
    s.halted = true ∧ ∃ a, c = .setBreakpoint a ∨ c = .clearBreakpoint a := by
  obtain ⟨r, he | ⟨-, hh, he⟩⟩ := runCommand_cases c s
  · exact absurd (congrArg State.bp he) h
  · refine ⟨hh, ?_⟩
    by_contra hc
    push Not at hc
    exact h ((congrArg State.bp he).trans (commandEffect_bp hc s))

/-- A step that changes memory is `WriteMemory` while Halted. -/
theorem writeMemory_of_step_mem_ne {s t : State} (h : step s = .next t) (hne : t.mem ≠ s.mem) :
    s.halted = true ∧ ∃ a bs, s.nextEvent = .command (.writeMemory a bs) := by
  obtain ⟨signal, -, he⟩ | ⟨-, rfl⟩ | ⟨-, rfl⟩ | ⟨c, hev, rfl⟩ | ⟨-, rfl⟩ | ⟨-, rfl⟩ := step_cases h
  · exact absurd (congrArg Prod.fst (engineStep_memAndBp he)) hne
  · exact absurd rfl hne
  · exact absurd (congrArg Prod.fst (haltSignal_memAndBp s.takeEvent)) hne
  · obtain ⟨hh, a, bs, rfl⟩ := writeMemory_of_runCommand_mem_ne (s := s.takeEvent) hne
    exact ⟨hh, a, bs, hev⟩
  · exact absurd rfl hne
  · exact absurd rfl hne

/-- A step that changes BP is one of its two commands while Halted, or `ColdReset`. -/
theorem breakpointCommand_or_coldReset_of_step_bp_ne {s t : State} (h : step s = .next t) (hne : t.bp ≠ s.bp) :
    (s.halted = true ∧ ∃ a, s.nextEvent = .command (.setBreakpoint a) ∨
      s.nextEvent = .command (.clearBreakpoint a)) ∨ s.nextEvent = .coldReset := by
  obtain ⟨signal, -, he⟩ | ⟨hev, rfl⟩ | ⟨-, rfl⟩ | ⟨c, hev, rfl⟩ | ⟨-, rfl⟩ | ⟨-, rfl⟩ := step_cases h
  · exact absurd (congrArg Prod.snd (engineStep_memAndBp he)) hne
  · exact .inr hev
  · exact absurd (congrArg Prod.snd (haltSignal_memAndBp s.takeEvent)) hne
  · obtain ⟨hh, a, hc⟩ := breakpointCommand_of_runCommand_bp_ne (s := s.takeEvent) hne
    exact .inl ⟨hh, a, by simpa [hev] using hc⟩
  · exact absurd rfl hne
  · exact absurd rfl hne

/-- Settles O46: the step's two inversions, for memory and for BP. -/
theorem memoryAndBreakpointsChangeOnlyByTheirCommands :
    Obligations.MemoryAndBreakpointsChangeOnlyByTheirCommands := fun _ _ h =>
  ⟨writeMemory_of_step_mem_ne h, breakpointCommand_or_coldReset_of_step_bp_ne h⟩

end Sys2Proof.Machine

namespace Sys2Proof.Machine

/-! The bus transactions of one `EngineStep` (20_memory.md R46, R52): the two fetches, and nothing else is a bus
transaction. -/

/-- An observation that is no bus transaction leaves the bus transactions. -/
theorem observe_busTrace {o : Observation} (ho : o.isBus = false) (s : State) :
    (s.observe o).busTrace = s.busTrace := by
  simp [State.busTrace, ho]

@[simp] theorem returnResult_busTrace (s : State) : (returnResult s).busTrace = s.busTrace := observe_busTrace rfl s

@[simp] theorem goHalted_busTrace (s : State) : (goHalted s).busTrace = s.busTrace := by
  unfold goHalted
  dsimp only
  split
  · exact observe_busTrace rfl _
  · rfl

@[simp] theorem entry_busTrace (s : State) : (entry s).busTrace = s.busTrace := by
  unfold entry
  split
  · exact goHalted_busTrace s
  · rfl

@[simp] theorem haltSignal_busTrace (s : State) : (haltSignal s).busTrace = s.busTrace := by
  unfold haltSignal
  split
  · rfl
  · split
    · exact observe_busTrace rfl s
    · rfl

@[simp] theorem arrive_busTrace (signal : Bool) (s : State) : (arrive signal s).busTrace = s.busTrace := by
  cases signal
  · rfl
  · exact haltSignal_busTrace s

@[simp] theorem boundaryCheck_busTrace (s : State) : (boundaryCheck s).busTrace = s.busTrace := by
  unfold boundaryCheck
  split
  · exact goHalted_busTrace s
  · rfl

/-- A fetch on a bound port is one read of PC. -/
theorem fetchByte_busTrace {s : State} (hb : s.readBound = true) :
    (fetchByte s).2.busTrace = .busRead s.PC (fetchByte s).1 :: s.busTrace :=
  congrArg (List.filter Observation.isBus) (busRead_trace hb)

/-- The two fetches on a bound port are the reads of PC and then PC + 1. -/
theorem afterFetch_busTrace {s : State} (hb : s.readBound = true) :
    s.afterFetch.busTrace =
      .busRead (s.PC + 1) (fetchByte (fetchByte s).2).1 :: .busRead s.PC (fetchByte s).1 :: s.busTrace := by
  have hb' : (fetchByte s).2.readBound = true := by rw [fetchByte_frame]; exact hb
  have hpc : (fetchByte s).2.PC = s.PC + 1 := by rw [fetchByte_frame]
  rw [State.afterFetch, fetchByte_busTrace hb', fetchByte_busTrace hb, hpc]

/-- What an instruction does after its fetches is no bus transaction. -/
theorem runInstruction_busTrace {s t : State} (h : runInstruction s = .next t) :
    t.busTrace = s.afterFetch.busTrace := by
  obtain ⟨i, u, -, hsame, rfl⟩ := runInstruction_spec h
  exact (congrArg State.busTrace hsame).trans rfl

/-- An `EngineStep` that executes issues the bus transactions of its two fetches. -/
theorem engineStep_busTrace_of_executes {signal : Bool} {s t : State} (hx : s.executes = true)
    (h : engineStep signal s = .next t) : t.busTrace = s.afterFetch.busTrace := by
  obtain ⟨hnx, -⟩ | ⟨-, u, hu, rfl⟩ := engineStep_cases h
  · simp [hx] at hnx
  · simpa using runInstruction_busTrace hu

/-- An `EngineStep` that Entry ends issues no bus transaction. -/
theorem engineStep_busTrace_of_not_executes {signal : Bool} {s t : State} (hx : s.executes = false)
    (h : engineStep signal s = .next t) : t.busTrace = s.busTrace := by
  rw [engineStep_of_not_executes hx] at h
  cases h
  simp

/-- Settles O24: an `EngineStep` that executes observes its two fetches, one that Entry ends observes none; the bytes
fetched do not depend on the host's list. -/
theorem oneInstructionIssuesTwoReads : Obligations.OneInstructionIssuesTwoReads := by
  intro s t signal hev hb h
  rw [step_of_event hev] at h
  refine ⟨fun hx => ?_, fun hx => engineStep_busTrace_of_not_executes (s := s.takeEvent) hx h⟩
  have hbytes := codeBytes_takeEvent s
  simp only [State.codeBytes, List.cons.injEq, and_true] at hbytes
  obtain ⟨hfirst, hsecond⟩ := hbytes
  rw [engineStep_busTrace_of_executes (s := s.takeEvent) hx h, afterFetch_busTrace (s := s.takeEvent) hb, hfirst, hsecond]
  rfl

end Sys2Proof.Machine

namespace Sys2Proof.Machine

/-! Code written by the debugger is what the engine fetches (20_memory.md R55). -/

/-- A write on a bound port of a mapped address stores the byte. -/
theorem busWrite_mem_of_mapped {a : Word} {s : State} (hb : s.writeBound = true) (hu : s.isUnmapped a = false)
    (v : Byte) : (busWrite a v s).mem = Memory.write s.mem a.toNat v := by
  simp [busWrite, hb, hu]

/-- Two bytes written at mapped addresses `a` and `a + 1`, modulo 65536. -/
theorem writeBytes_pair_mem {a : Word} {s : State} (hb : s.writeBound = true) (h0 : s.isUnmapped a = false)
    (h1 : s.isUnmapped (a + 1) = false) (b0 b1 : Byte) :
    (writeBytes [b0, b1] a s).mem = Memory.write (Memory.write s.mem a.toNat b0) (a + 1).toNat b1 := by
  have hb' : (busWrite a b0 s).writeBound = true := by rw [busWrite_frame]; exact hb
  have h1' : (busWrite a b0 s).isUnmapped (a + 1) = false := by rw [busWrite_frame]; exact h1
  simp only [writeBytes]
  rw [busWrite_mem_of_mapped hb' h1', busWrite_mem_of_mapped hb h0]

/-- Consecutive addresses differ, FFFF and 0000 among them. -/
theorem toNat_succ_ne (a : Word) : (a + 1).toNat ≠ a.toNat := by
  bv_omega

/-- Reading back two bytes written at consecutive addresses. -/
theorem Memory.read_write_pair {m : Memory} (hm : Memory.wf m) (a : Word) (b0 b1 : Byte) :
    Memory.read (Memory.write (Memory.write m a.toNat b0) (a + 1).toNat b1) a.toNat = b0 ∧
    Memory.read (Memory.write (Memory.write m a.toNat b0) (a + 1).toNat b1) (a + 1).toNat = b1 := by
  have hm' : Memory.wf (Memory.write m a.toNat b0) := Memory.write_wf hm a.isLt b0
  constructor
  · rw [Memory.read_write hm', if_neg (toNat_succ_ne a), Memory.read_write hm, if_pos rfl]
  · rw [Memory.read_write hm', if_pos rfl]

/-- `WriteMemory` while Halted performs the writes and answers. -/
theorem step_of_writeMemory {s : State} {a : Word} {bs : List Byte} (hev : s.nextEvent = .command (.writeMemory a bs))
    (hp : s.params.debugPresent = true) (hh : s.halted = true) :
    step s = .next ((writeBytes bs a s.takeEvent).observe (.reply .unchanged)) := by
  rw [step_of_event hev]
  simp [handleEvent, runCommand, whileHalted, hp, hh]

/-- Where the code lies in memory and memory holds two bytes just written at PC, the engine fetches those two. -/
theorem codeBytes_of_mem_write_pair {s : State} {m : Memory} {b0 b1 : Byte} (hcode : s.codeInMemory = true)
    (hm : Memory.wf m) (hmem : s.mem = Memory.write (Memory.write m s.PC.toNat b0) (s.PC + 1).toNat b1) :
    s.codeBytes = [b0, b1] := by
  obtain ⟨h0, h1⟩ := Memory.read_write_pair hm s.PC b0 b1
  rw [(fetch_of_codeInMemory hcode).1, hmem, h0, h1]

/-- Settles O39: the writes store both bytes and leave PC, the port and the map, so the fetches read them back. -/
theorem fetchSeesTheWrittenCode : Obligations.FetchSeesTheWrittenCode := by
  intro s b0 b1 hev hp hh hb hcode hm
  have hmapped := hcode
  simp only [State.codeInMemory, Bool.and_eq_true, Bool.not_eq_true'] at hmapped
  obtain ⟨⟨-, h0⟩, h1⟩ := hmapped
  have hpc : (writeBytes [b0, b1] s.PC s.takeEvent).PC = s.PC := by rw [writeBytes_frame]; rfl
  refine ⟨_, step_of_writeMemory hev hp hh, hpc, codeBytes_of_mem_write_pair ?_ hm ?_⟩
  · rw [writeBytes_frame]; exact hcode
  · rw [observe_mem, observe_PC, hpc]
    exact writeBytes_pair_mem (s := s.takeEvent) hb h0 h1 b0 b1

end Sys2Proof.Machine

namespace Sys2Proof

/-! The encoding of format PB (30_encoding.md R61, R62, R70): a word is a handler's opcode and a postbyte, and the handler
reads the postbyte. The decoder and the encoder are tied to that one form; both round trips follow from it. -/

/-- A handler's opcode and any postbyte decode to what the handler reads, and the rest is left. -/
theorem decode_opcode (h : Handler) (pb : Byte) (rest : List Byte) :
    decode (h.opcode :: pb :: rest) = .ok (h.instr pb, rest) := by
  cases h <;> rfl

/-- The bytes that decode are those that begin with a handler's opcode and a postbyte. -/
theorem decode_ok_iff {bytes : List Byte} {i : Instr} {rest : List Byte} :
    decode bytes = .ok (i, rest) ↔ ∃ (h : Handler) (pb : Byte), bytes = h.opcode :: pb :: rest ∧ i = h.instr pb := by
  constructor
  · fun_cases decode bytes with
    | case3 opc h hsel pb rest' =>
      intro hdec
      cases hdec
      exact ⟨h, pb, by rw [(select_handler_iff opc h).mp hsel], rfl⟩
    | _ => nofun
  · rintro ⟨h, pb, rfl, rfl⟩
    exact decode_opcode h pb rest

/-- The codes of a postbyte's two nibbles give that postbyte. -/
theorem postbyte_decodeCode_nibbles (pb : Byte) :
    postbyte (decodeCode (highNibble pb)) (decodeCode (lowNibble pb)) = pb := by
  rw [postbyte, encodeCode_decodeCode, encodeCode_decodeCode, nibbles_append]

/-- What a handler reads from a postbyte encodes as the handler's opcode and that postbyte. -/
theorem encode_instr (h : Handler) (pb : Byte) : encode (h.instr pb) = [h.opcode, pb] := by
  cases h <;> simp only [Handler.instr, encode, Handler.opcode, postbyte_decodeCode_nibbles]

/-- A handler reads a well-formed instruction from every postbyte. -/
theorem instr_wf (h : Handler) (pb : Byte) : (h.instr pb).wf = true := by
  cases h <;> simp [Handler.instr, Instr.wf]

/-- A well-formed instruction is what its handler reads from the postbyte of its two codes. -/
theorem exists_instr_of_wf {i : Instr} (hi : i.wf = true) : ∃ (h : Handler) (pb : Byte), h.instr pb = i := by
  cases i with
  | exg r0 r1 =>
    obtain ⟨h0, h1⟩ := Bool.and_eq_true_iff.mp hi
    exact ⟨.exg, postbyte r0 r1, by simp [Handler.instr, decodeCode_encodeCode h0, decodeCode_encodeCode h1]⟩
  | tfr r0 r1 =>
    obtain ⟨h0, h1⟩ := Bool.and_eq_true_iff.mp hi
    exact ⟨.tfr, postbyte r0 r1, by simp [Handler.instr, decodeCode_encodeCode h0, decodeCode_encodeCode h1]⟩

/-- Settles O1: the instruction is what some handler reads from some postbyte, and those two are its encoding. -/
theorem encodeThenDecodeReturnsInstruction : Obligations.EncodeThenDecodeReturnsInstruction := by
  intro i rest hi
  obtain ⟨h, pb, rfl⟩ := exists_instr_of_wf hi
  rw [encode_instr]
  exact decode_opcode h pb rest

/-- Settles O2: bytes that decode begin with a handler's opcode and a postbyte, which what the handler reads encodes to. -/
theorem decodeThenEncodeReturnsBytes : Obligations.DecodeThenEncodeReturnsBytes := by
  intro bytes i rest hdec
  obtain ⟨h, pb, rfl, rfl⟩ := decode_ok_iff.mp hdec
  exact ⟨instr_wf h pb, by rw [encode_instr]; rfl⟩

theorem decode_of_select_page {opc : Byte} (h : select opc = .page) (rest : List Byte) :
    decode (opc :: rest) = .error (.pagePrefix opc) := by
  simp only [decode, h]

theorem decode_of_select_outOfSlice {opc : Byte} (h : select opc = .outOfSlice) (rest : List Byte) :
    decode (opc :: rest) = .error (.outOfSlice opc) := by
  simp only [decode, h]

/-- Settles O3: one clause for each arm that the first byte can select. -/
theorem opcodeDecidesTheLength : Obligations.OpcodeDecidesTheLength := by
  intro opc pb rest
  refine ⟨?_, fun hp => ?_, fun he ht hp => ?_⟩
  · have two (h : Handler) : ∃ i, decode (h.opcode :: pb :: rest) = .ok (i, rest) ∧ (encode i).length = 2 :=
      ⟨h.instr pb, decode_opcode h pb rest, by rw [encode_instr]; rfl⟩
    rintro (rfl | rfl)
    · exact two .exg
    · exact two .tfr
  · exact decode_of_select_page ((select_page_iff opc).mpr hp) _
  · exact decode_of_select_outOfSlice ((select_outOfSlice_iff opc).mpr ⟨he, ht, hp⟩) _

theorem highNibble_toNat (pb : Byte) : (highNibble pb).toNat = pb.toNat / 16 := by
  have := pb.isLt
  simp only [highNibble, BitVec.extractLsb'_toNat, Nat.shiftRight_eq_div_pow]
  omega

theorem lowNibble_toNat (pb : Byte) : (lowNibble pb).toNat = pb.toNat % 16 := by
  simp [lowNibble]

/-- Settles O4: the table is finite, and the nibbles of a postbyte are its quotient and remainder by 16. -/
theorem registerCodeTable : Obligations.RegisterCodeTable :=
  ⟨by decide, by decide, by decide, fun pb => ⟨highNibble_toNat pb, lowNibble_toNat pb, rfl, rfl⟩⟩

/-- A pair is valid exactly when both codes have the same width. -/
theorem validPair_iff (r0 r1 : RegCode) : validPair r0 r1 = true ↔ ∃ w, r0.width = some w ∧ r1.width = some w := by
  rw [validPair, Bool.and_eq_true_iff, Option.isSome_iff_exists, beq_iff_eq]
  constructor
  · rintro ⟨⟨w, hw⟩, he⟩
    exact ⟨w, hw, he ▸ hw⟩
  · rintro ⟨w, h0, h1⟩
    exact ⟨⟨w, h0⟩, h0.trans h1.symm⟩

/-- Settles O5: the predicate compares widths; the 256 postbytes are counted. -/
theorem validPostbytesAreFiftyTwo : Obligations.ValidPostbytesAreFiftyTwo := by
  refine ⟨validPair_iff, fun r hr => ?_, ?_⟩
  · obtain ⟨w, hw⟩ := Option.ne_none_iff_exists'.mp hr
    exact (validPair_iff r r).mpr ⟨w, hw, hw⟩
  · rintro _ rfl
    exact ⟨rfl, rfl, rfl, rfl⟩

/-- Settles O6: each word is a handler's opcode and a postbyte, and the handler's reading of it is evaluated. -/
theorem spelledOutWordsDecode : Obligations.SpelledOutWordsDecode :=
  ⟨decode_opcode .exg 0x01 [], decode_opcode .tfr 0x8A [], decode_opcode .tfr 0x05 [], decode_opcode .exg 0x15 [],
    decode_opcode .exg 0x18 [], decode_opcode .tfr 0x75 []⟩

end Sys2Proof

namespace Sys2Proof.Machine

/-! A word placed at PC (30_encoding.md R61; 40_dispatch.md R80 to R83): the placed bytes are fetched, and the engine runs
the instruction they decode to. -/

/-- Placing bytes takes from the map every range that holds one of their addresses. -/
theorem placeAtPC_isUnmapped {b0 b1 : Byte} {s : State} {a : Word} (ha : a = s.PC ∨ a = s.PC + 1) :
    (placeAtPC b0 b1 s).isUnmapped a = false := by
  simp only [State.isUnmapped, placeAtPC, List.any_eq_false, List.mem_filter, Bool.not_eq_true', Bool.or_eq_false_iff]
  rintro r ⟨-, h0, h1⟩
  rcases ha with rfl | rfl
  · exact ne_true_of_eq_false h0
  · exact ne_true_of_eq_false h1

/-- Bytes placed at PC lie in memory, behind a bound port. -/
theorem placeAtPC_codeInMemory (b0 b1 : Byte) (s : State) : (placeAtPC b0 b1 s).codeInMemory = true := by
  have h0 : (placeAtPC b0 b1 s).isUnmapped (placeAtPC b0 b1 s).PC = false := placeAtPC_isUnmapped (.inl rfl)
  have h1 : (placeAtPC b0 b1 s).isUnmapped ((placeAtPC b0 b1 s).PC + 1) = false := placeAtPC_isUnmapped (.inr rfl)
  rw [State.codeInMemory, h0, h1]
  rfl

/-- The bytes placed at PC are those the engine fetches. -/
theorem placeAtPC_codeBytes {s : State} (hm : Memory.wf s.mem) (b0 b1 : Byte) :
    (placeAtPC b0 b1 s).codeBytes = [b0, b1] :=
  codeBytes_of_mem_write_pair (placeAtPC_codeInMemory b0 b1 s) hm rfl

/-- A table word is always two bytes. -/
theorem tableBytes_length (nbits w : Nat) : (tableBytes nbits w).length = 2 := by
  unfold tableBytes
  split <;> rfl

/-- The bytes of a table word, placed at PC, are those the engine fetches. -/
theorem withFetchWord_codeBytes {s : State} (hm : Memory.wf s.mem) (nbits w : Nat) :
    (s.withFetchWord nbits w).codeBytes = tableBytes nbits w := by
  obtain ⟨b0, b1, hb⟩ := List.length_eq_two.mp (tableBytes_length nbits w)
  rw [State.withFetchWord, placeAtPC_codeBytes hm, hb]
  rfl

/-- A table word that decodes leaves no byte over. -/
theorem decode_tableBytes {nbits w : Nat} {i : Instr} (h : decodeTableWord nbits w = some i) :
    decode (tableBytes nbits w) = .ok (i, []) := by
  unfold decodeTableWord at h
  split at h
  case h_2 => cases h
  case h_1 j rest hdec =>
    cases h
    obtain ⟨hd, pb, hbytes, -⟩ := decode_ok_iff.mp hdec
    have hrest : rest = [] := by
      have hlen := tableBytes_length nbits w
      rw [hbytes] at hlen
      simpa using hlen
    rw [hdec, hrest]

/-- Where Entry lets the engine go on and the bytes at PC decode, it runs that instruction and checks the boundary. -/
theorem engineStep_of_decode {s t : State} {i : Instr} (hx : s.executes = true) (hdec : decode s.codeBytes = .ok (i, []))
    (hexec : exec i s.afterFetch = .next t) (signal : Bool) :
    engineStep signal s = .next (returnResult (boundaryCheck (arrive signal t))) := by
  rw [engineStep_of_executes hx, runInstruction_of_decode hdec, hexec]

/-- With a word placed at PC the step is an `EngineStep` without a signal. -/
theorem step_withFetchWord (s : State) (nbits w : Nat) :
    step (s.withFetchWord nbits w) = engineStep false (s.withFetchWord nbits w) := rfl

/-- Settles O53: the placed bytes are fetched and decode to the instruction, which every state gives a next state. -/
theorem placedWordRunsNext : Obligations.PlacedWordRunsNext := by
  intro s nbits w i hm hword
  obtain ⟨t, hexec, -⟩ := exec_spec i (s.withFetchWord nbits w).afterFetch
  have hdec : decode (s.withFetchWord nbits w).codeBytes = .ok (i, []) := by
    rw [withFetchWord_codeBytes hm, decode_tableBytes hword]
  refine ⟨_, hexec, ?_, rfl, ?_⟩
  · rw [afterFetch_frame]
    rfl
  · rw [step_withFetchWord]
    exact engineStep_of_decode rfl hdec hexec false

end Sys2Proof.Machine

namespace Sys2Proof.Machine

/-! What one `EngineStep` answers, one lemma for each way it can go (40_dispatch.md R81, R83, R89, R90). The bytes are those
of the state before the event is taken, which fetching does not look at. -/

@[simp] theorem fetchByte_takeEvent_fst (s : State) : (fetchByte s.takeEvent).1 = (fetchByte s).1 := by
  rw [fetchByte_takeEvent]

@[simp] theorem fetchByte_fetchByte_takeEvent_fst (s : State) :
    (fetchByte (fetchByte s.takeEvent).2).1 = (fetchByte (fetchByte s).2).1 := by
  have h := codeBytes_takeEvent s
  simp only [State.codeBytes, List.cons.injEq, and_true] at h
  exact h.2

theorem runInstruction_of_page {s : State} (h : select (fetchByte s).1 = .page) :
    runInstruction s = .refused (.pagePrefix (fetchByte s).1 (fetchByte (fetchByte s).2).1) := by
  simp only [runInstruction, h]

theorem runInstruction_of_outOfSlice {s : State} (h : select (fetchByte s).1 = .outOfSlice) :
    runInstruction s = .refused (.outOfSlice (fetchByte s).1) := by
  simp only [runInstruction, h]

section engineStep

variable {s : State} {signal : Bool} (hev : s.nextEvent = .engineStep signal)
include hev

theorem step_of_not_executes (hx : s.executes = false) :
    step s = .next (returnResult (arrive signal (entry s.takeEvent))) := by
  rw [step_of_event hev]
  exact engineStep_of_not_executes (s := s.takeEvent) hx signal

/-- Bytes that decode are run: every instruction answers a next state. -/
theorem step_of_decode (hx : s.executes = true) {i : Instr} (hdec : decode s.codeBytes = .ok (i, [])) :
    ∃ t, exec i s.takeEvent.afterFetch = .next t ∧
      step s = .next (returnResult (boundaryCheck (arrive signal t))) := by
  obtain ⟨t, hexec, -⟩ := exec_spec i s.takeEvent.afterFetch
  refine ⟨_, hexec, ?_⟩
  rw [step_of_event hev]
  exact engineStep_of_decode (s := s.takeEvent) hx ((congrArg decode (codeBytes_takeEvent s)).trans hdec) hexec signal

theorem step_of_handler (hx : s.executes = true) {hd : Handler} (hsel : select (fetchByte s).1 = .handler hd) :
    ∃ t, step s = .next t := by
  obtain ⟨t, -, hstep⟩ := step_of_decode hev hx (decode_codeBytes hsel)
  exact ⟨_, hstep⟩

theorem step_of_runInstruction_refused (hx : s.executes = true) {r : Refusal}
    (hrun : runInstruction s.takeEvent = .refused r) : step s = .refused r := by
  rw [step_of_event hev, handleEvent, engineStep_of_executes (s := s.takeEvent) hx, hrun]

theorem step_of_page (hx : s.executes = true) (hsel : select (fetchByte s).1 = .page) :
    step s = .refused (.pagePrefix (fetchByte s).1 (fetchByte (fetchByte s).2).1) := by
  apply step_of_runInstruction_refused hev hx
  rw [runInstruction_of_page] <;> simp [hsel]

theorem step_of_outOfSlice (hx : s.executes = true) (hsel : select (fetchByte s).1 = .outOfSlice) :
    step s = .refused (.outOfSlice (fetchByte s).1) := by
  apply step_of_runInstruction_refused hev hx
  rw [runInstruction_of_outOfSlice] <;> simp [hsel]

/-- An `EngineStep` is refused exactly when it executes and Decode selects no handler. -/
theorem step_refused_iff :
    (∃ r, step s = .refused r) ↔ s.executes = true ∧ ∀ hd, select (fetchByte s).1 ≠ .handler hd := by
  constructor
  · rintro ⟨r, hr⟩
    cases hx : s.executes with
    | false =>
      rw [step_of_not_executes hev hx] at hr
      cases hr
    | true =>
      refine ⟨rfl, fun hd hsel => ?_⟩
      obtain ⟨t, ht⟩ := step_of_handler hev hx hsel
      rw [ht] at hr
      cases hr
  · rintro ⟨hx, hno⟩
    cases hsel : select (fetchByte s).1 with
    | handler hd => exact absurd hsel (hno hd)
    | page => exact ⟨_, step_of_page hev hx hsel⟩
    | outOfSlice => exact ⟨_, step_of_outOfSlice hev hx hsel⟩

end engineStep

/-- Settles O21: `exec_spec` gives every instruction its next state; of the six events only an `EngineStep` that executes
can answer anything else, and then by the arm that Decode selects. -/
theorem everyUnrefusedStepCompletes : Obligations.EveryUnrefusedStepCompletes := by
  constructor
  · intro i s
    obtain ⟨t, ht, -⟩ := exec_spec i s
    exact ⟨_, ht⟩
  · intro s
    cases hev : s.nextEvent with
    | engineStep signal =>
      cases hx : s.executes with
      | false => exact .inl ⟨_, step_of_not_executes hev hx⟩
      | true =>
        cases hsel : select (fetchByte s).1 with
        | handler hd => exact .inl (step_of_handler hev hx hsel)
        | page => exact .inr (.inr ⟨_, _, step_of_page hev hx hsel⟩)
        | outOfSlice => exact .inr (.inl ⟨_, step_of_outOfSlice hev hx hsel⟩)
    | _ => exact .inl ⟨_, step_of_event hev⟩

/-- A byte selects no handler exactly when it is neither opcode of the block. -/
theorem select_ne_handler_iff (b : Byte) : (∀ hd, select b ≠ .handler hd) ↔ b ≠ opcExg ∧ b ≠ opcTfr := by
  simp only [ne_eq, select_handler_iff]
  constructor
  · exact fun h => ⟨h .exg, h .tfr⟩
  · rintro ⟨he, ht⟩ hd
    cases hd with
    | exg => exact he
    | tfr => exact ht

/-- Settles O23: the first byte selects no handler, the page arm or the default arm. -/
theorem engineRefusesExactlyOutOfSlice : Obligations.EngineRefusesExactlyOutOfSlice := by
  intro s signal hev
  refine ⟨?_, fun hx hp => ?_, fun hx he ht hp => ?_⟩
  · rw [step_refused_iff hev, select_ne_handler_iff]
  · exact step_of_page hev hx ((select_page_iff _).mpr hp)
  · exact step_of_outOfSlice hev hx ((select_outOfSlice_iff _).mpr ⟨he, ht, hp⟩)

/-- Settles O22: the decoded instruction is run from the fetched state, which does not depend on the host's list. -/
theorem stepRunsTheDecodedInstruction : Obligations.StepRunsTheDecodedInstruction := by
  intro s signal hev hx
  refine ⟨fun i hdec => step_of_decode hev hx hdec, fun hcode => ⟨(fetch_of_codeInMemory hcode).1, ?_⟩⟩
  exact (fetch_of_codeInMemory (s := s.takeEvent) hcode).2

end Sys2Proof.Machine

namespace Sys2Proof.Machine

/-! An `EngineStep` that Entry ends (40_dispatch.md R81; 60_exceptions.md R128, R129, R133): what Entry, the arrival of a
signal and the report do when the controller is Halted. -/

/-- A signal that arrives while Halted is confirmed where the debug subsystem is present, and absorbed. -/
theorem arrive_of_halted {s : State} (hh : s.halted = true) (signal : Bool) :
    arrive signal s = { s with
      trace := (if signal && s.params.debugPresent then [.reply .confirmedHalted] else []) ++ s.trace } := by
  cases signal with
  | false => rfl
  | true =>
    cases hp : s.params.debugPresent with
    | false => simp [arrive, haltSignal, hp]
    | true => simp [arrive, haltSignal, State.observe, hh, hp]

theorem entry_of_halted {s : State} (hh : s.halted = true) : entry s = s := by
  simp [entry, hh]

/-- Entry honours a latched halt request and confirms it. -/
theorem entry_of_haltReq {s : State} (hh : s.halted = false) (hr : s.haltReq = true) :
    entry s = { s with
      halted := true, stepPending := false, haltReq := false, trace := .reply .confirmedHalted :: s.trace } := by
  simp [entry, goHalted, State.observe, hh, hr]

/-- Settles O25: Entry leaves a Halted controller alone and halts one with a latched request; a signal then arrives while
Halted. -/
theorem haltedEngineStepDoesNothing : Obligations.HaltedEngineStepDoesNothing := by
  rintro s signal _ hev rfl
  refine ⟨fun hh => ?_, fun hh hr => ?_⟩
  · rw [step_of_not_executes hev (by simp [State.executes, hh]), entry_of_halted (s := s.takeEvent) hh,
      arrive_of_halted (s := s.takeEvent) hh]
    simp [returnResult, State.observe, State.takeEvent, hh]
  · rw [step_of_not_executes hev (by simp [State.executes, hr]), entry_of_haltReq (s := s.takeEvent) hh hr,
      arrive_of_halted rfl]
    rfl

end Sys2Proof.Machine

namespace Sys2Proof.Machine

/-! The Boundary Check after an instruction (40_dispatch.md R86; 60_exceptions.md R124 to R128): the instruction leaves BP
and the debug flags, a signal sets the latch, and the check halts exactly on its condition. -/

/-- An instruction changes registers, LEDGER, the trace and the count of free bytes. -/
theorem runInstruction_frame {s t : State} (h : runInstruction s = .next t) :
    t = { s with
      A := t.A, B := t.B, X := t.X, Y := t.Y, U := t.U, S := t.S, PC := t.PC, DP := t.DP, CC := t.CC
      ledger := t.ledger, draws := t.draws, trace := t.trace } := by
  obtain ⟨i, u, -, hsame, rfl⟩ := runInstruction_spec h
  rw [account, hsame, afterFetch_frame]

theorem executes_iff (s : State) : s.executes = true ↔ s.halted = false ∧ s.haltReq = false := by
  simp [State.executes]

/-- A signal that arrives while Running latches a halt request, where the debug subsystem is present. -/
theorem arrive_of_running {s : State} (hh : s.halted = false) (signal : Bool) :
    arrive signal s = { s with haltReq := s.haltReq || (signal && s.params.debugPresent) } := by
  cases signal with
  | false => simp [arrive]
  | true =>
    cases hp : s.params.debugPresent with
    | false => simp [arrive, haltSignal, hp]
    | true => simp [arrive, haltSignal, hh, hp]

theorem haltCondition_iff (s : State) :
    haltCondition s = true ↔ s.PC ∈ s.bp ∨ s.stepPending = true ∨ s.haltReq = true := by
  simp [haltCondition, or_assoc]

theorem boundaryCheck_of_haltCondition {s : State} (hc : haltCondition s = true) : boundaryCheck s = goHalted s :=
  if_pos hc

theorem boundaryCheck_of_not_haltCondition {s : State} (hc : haltCondition s = false) : boundaryCheck s = s :=
  if_neg (ne_true_of_eq_false hc)

/-- A state at the Boundary Check without a halt condition has no halt request. -/
theorem haltReq_of_not_haltCondition {s : State} (hc : haltCondition s = false) : s.haltReq = false := by
  simp only [haltCondition, Bool.or_eq_false_iff] at hc
  exact hc.2

/-- An instruction leaves BP, the debug flags and the parameters. -/
theorem runInstruction_debug {s t : State} (h : runInstruction s = .next t) :
    t.bp = s.bp ∧ t.halted = s.halted ∧ t.stepPending = s.stepPending ∧ t.haltReq = s.haltReq ∧
      t.params = s.params := by
  rw [runInstruction_frame h]
  exact ⟨rfl, rfl, rfl, rfl, rfl⟩

/-- The state `v` that the Boundary Check of an executing step sees: Running, with BP and the step latch as before the step,
and with the signal as its halt request. -/
theorem step_boundary {s t : State} {signal : Bool} (hev : s.nextEvent = .engineStep signal) (hx : s.executes = true)
    (h : step s = .next t) :
    ∃ v, t = returnResult (boundaryCheck v) ∧ v.bp = s.bp ∧ v.halted = false ∧ v.stepPending = s.stepPending ∧
      v.haltReq = (signal && s.params.debugPresent) := by
  rw [step_of_event hev] at h
  obtain ⟨hh, hr⟩ := (executes_iff s).mp hx
  obtain ⟨hnx, -⟩ | ⟨-, u, hu, rfl⟩ := engineStep_cases h
  · rw [executes_takeEvent, hx] at hnx
    cases hnx
  · obtain ⟨hbp, hhalted, hpending, hreq, hparams⟩ := runInstruction_debug hu
    refine ⟨_, rfl, ?_⟩
    rw [arrive_of_running (hhalted.trans hh)]
    simp [hbp, hhalted, hh, hpending, hreq, hr, hparams]

/-- Settles O26: either the halt condition holds and the step goes to Halted, or the state at the Boundary Check stays. -/
theorem boundaryCheckHaltsExactlyOnItsConditions : Obligations.BoundaryCheckHaltsExactlyOnItsConditions := by
  intro s t signal hev hx hstep
  obtain ⟨v, rfl, hbp, hh, hpending, hreq⟩ := step_boundary hev hx hstep
  obtain ⟨-, hr⟩ := (executes_iff s).mp hx
  have hcond := haltCondition_iff v
  rw [hbp, hpending, hreq, Bool.and_eq_true] at hcond
  cases hc : haltCondition v with
  | true =>
    rw [hc] at hcond
    rw [boundaryCheck_of_haltCondition hc]
    simpa [hbp] using hcond
  | false =>
    rw [hc] at hcond
    rw [boundaryCheck_of_not_haltCondition hc]
    simpa [hh, hbp, hpending, hr, haltReq_of_not_haltCondition hc] using hcond

end Sys2Proof.Machine

namespace Sys2Proof.Machine

/-! The registers of a valid pair (30_encoding.md R63; 10_state.md R17, R18): the two codes name registers of one width, and
EXG and TFR are reads and writes of those two. What is said once for a register of either width serves both widths. -/

/-- A code with a width names a register. -/
theorem exists_reg_of_width {c : RegCode} {w : Nat} (h : c.width = some w) : ∃ r : Reg, c = r.code := by
  cases c with
  | wide r => exact ⟨.wide r, rfl⟩
  | narrow r => exact ⟨.narrow r, rfl⟩
  | unlisted n => cases h

/-- A pair of codes is invalid, or names two registers whose pair is valid. -/
theorem validPair_cases (r0 r1 : RegCode) :
    validPair r0 r1 = false ∨ ∃ a b : Reg, r0 = a.code ∧ r1 = b.code ∧ validPair a.code b.code = true := by
  cases h : validPair r0 r1 with
  | false => exact .inl rfl
  | true =>
    obtain ⟨w, h0, h1⟩ := (validPair_iff r0 r1).mp h
    obtain ⟨a, rfl⟩ := exists_reg_of_width h0
    obtain ⟨b, rfl⟩ := exists_reg_of_width h1
    exact .inr ⟨a, b, rfl, rfl, h⟩

theorem validPair_comm (r0 r1 : RegCode) : validPair r0 r1 = validPair r1 r0 := by
  rw [Bool.eq_iff_iff, validPair_iff, validPair_iff]
  exact exists_congr fun _ => and_comm

/-- EXG of a valid pair writes each register with what the other held. -/
theorem exchange_code {a b : Reg} (h : validPair a.code b.code = true) (s : State) :
    exchange a.code b.code s = writeReg b (readReg a s) (writeReg a (readReg b s) s) := by
  cases a <;> cases b
  · simp [Reg.code, exchange_wide, writeReg, readReg]
  · cases h
  · cases h
  · simp [Reg.code, exchange_narrow, writeReg, readReg]

/-- TFR of a valid pair writes the second register with what the first holds. -/
theorem transfer_code {a b : Reg} (h : validPair a.code b.code = true) (s : State) :
    transfer a.code b.code s = writeReg b (readReg a s) s := by
  cases a <;> cases b
  · simp [Reg.code, transfer_wide, writeReg, readReg]
  · cases h
  · cases h
  · simp [Reg.code, transfer_narrow, writeReg, readReg]

/-- Writing a register its own value changes nothing. -/
@[simp] theorem writeReg_readReg (r : Reg) (s : State) : writeReg r (readReg r s) s = s := by
  cases r <;> simp [writeReg, readReg]

/-- Of two writes of a register the second one counts. -/
@[simp] theorem writeReg_writeReg (r : Reg) (v w : Nat) (s : State) :
    writeReg r v (writeReg r w s) = writeReg r v s := by
  rcases r with r | r <;> cases r <;> rfl

/-- Writes of registers that do not overlap commute. -/
theorem writeReg_comm {a b : Reg} (h : a.code.touches b = false) (v w : Nat) (s : State) :
    writeReg a v (writeReg b w s) = writeReg b w (writeReg a v s) := by
  rcases a with p | p <;> rcases b with q | q <;> cases p <;> cases q <;> first | rfl | cases h

@[simp] theorem touches_wide (p q : Reg16) : (RegCode.wide p).touches (.wide q) = (p == q) := by
  cases p <;> cases q <;> rfl

@[simp] theorem touches_narrow (p q : Reg8) : (RegCode.narrow p).touches (.narrow q) = (p == q) := by
  cases p <;> cases q <;> rfl

/-- Overlap is symmetric. -/
theorem touches_comm (a b : Reg) : a.code.touches b = b.code.touches a := by
  rcases a with p | p <;> rcases b with q | q <;> cases p <;> cases q <;> rfl

/-- Two registers of one width do not overlap. -/
theorem touches_of_validPair {a b : Reg} (h : validPair a.code b.code = true) (hne : a ≠ b) :
    a.code.touches b = false := by
  cases a <;> cases b
  · simpa [Reg.code] using hne
  · cases h
  · cases h
  · simpa [Reg.code] using hne

/-- EXG of a register with itself changes nothing. -/
theorem exchange_self (c : RegCode) (s : State) : exchange c c s = s := by
  obtain h | ⟨a, b, rfl, hab, h⟩ := validPair_cases c c
  · exact exchange_invalid h s
  · rw [← hab] at h
    rw [exchange_code h, writeReg_readReg, writeReg_readReg]

/-- TFR of a register to itself changes nothing. -/
theorem transfer_self (c : RegCode) (s : State) : transfer c c s = s := by
  obtain h | ⟨a, b, rfl, hab, h⟩ := validPair_cases c c
  · exact transfer_invalid h s
  · rw [← hab] at h
    rw [transfer_code h, writeReg_readReg]

/-- EXG does not depend on the order of its operands. -/
theorem exchange_comm (r0 r1 : RegCode) (s : State) : exchange r0 r1 s = exchange r1 r0 s := by
  obtain h | ⟨a, b, rfl, rfl, h⟩ := validPair_cases r0 r1
  · rw [exchange_invalid h, exchange_invalid (validPair_comm r0 r1 ▸ h)]
  · by_cases hab : a = b
    · rw [hab]
    · have h' : validPair b.code a.code = true := validPair_comm a.code b.code ▸ h
      rw [exchange_code h, exchange_code h', writeReg_comm (touches_of_validPair h hab)]

@[simp] theorem get16_exchange_right (p q : Reg16) (s : State) :
    get16 q (exchange (.wide p) (.wide q) s) = get16 p s := get16_set16 q _ _

@[simp] theorem get16_exchange_left (p q : Reg16) (s : State) :
    get16 p (exchange (.wide p) (.wide q) s) = get16 q s := by
  rw [exchange_comm, get16_exchange_right]

@[simp] theorem get8_exchange_right (p q : Reg8) (s : State) :
    get8 q (exchange (.narrow p) (.narrow q) s) = get8 p s := get8_set8 q _ _

@[simp] theorem get8_exchange_left (p q : Reg8) (s : State) :
    get8 p (exchange (.narrow p) (.narrow q) s) = get8 q s := by
  rw [exchange_comm, get8_exchange_right]

theorem readReg_exchange_right {a b : Reg} (h : validPair a.code b.code = true) (s : State) :
    readReg b (exchange a.code b.code s) = readReg a s := by
  cases a <;> cases b
  · simp [Reg.code, readReg]
  · cases h
  · cases h
  · simp [Reg.code, readReg]

theorem readReg_exchange_left {a b : Reg} (h : validPair a.code b.code = true) (s : State) :
    readReg a (exchange a.code b.code s) = readReg b s := by
  rw [exchange_comm, readReg_exchange_right (validPair_comm a.code b.code ▸ h)]

/-- EXG undoes itself. -/
theorem exchange_exchange (r0 r1 : RegCode) (s : State) : exchange r0 r1 (exchange r0 r1 s) = s := by
  obtain h | ⟨a, b, rfl, rfl, h⟩ := validPair_cases r0 r1
  · rw [exchange_invalid h, exchange_invalid h]
  · by_cases hab : a = b
    · rw [hab, exchange_self, exchange_self]
    · rw [exchange_code h (exchange a.code b.code s), readReg_exchange_right h, readReg_exchange_left h, exchange_code h,
        writeReg_comm (touches_of_validPair h hab), writeReg_writeReg, writeReg_writeReg, writeReg_readReg,
        writeReg_readReg]

@[simp] theorem get16_transfer_target (p q : Reg16) (s : State) :
    get16 q (transfer (.wide p) (.wide q) s) = get16 p s := get16_set16 q _ _

@[simp] theorem get16_transfer_source (p q : Reg16) (s : State) :
    get16 p (transfer (.wide p) (.wide q) s) = get16 p s := by
  by_cases h : p = q
  · rw [h, transfer_self]
  · exact get16_set16_of_ne h _ s

@[simp] theorem get8_transfer_target (p q : Reg8) (s : State) :
    get8 q (transfer (.narrow p) (.narrow q) s) = get8 p s := get8_set8 q _ _

@[simp] theorem get8_transfer_source (p q : Reg8) (s : State) :
    get8 p (transfer (.narrow p) (.narrow q) s) = get8 p s := by
  by_cases h : p = q
  · rw [h, transfer_self]
  · exact get8_set8_of_ne h _ s

@[simp] theorem exchange_ledger (r0 r1 : RegCode) (s : State) : (exchange r0 r1 s).ledger = s.ledger :=
  sameButRegisters_ledger (exchange_sameButRegisters r0 r1 s)

@[simp] theorem exchange_params (r0 r1 : RegCode) (s : State) : (exchange r0 r1 s).params = s.params :=
  sameButRegisters_params (exchange_sameButRegisters r0 r1 s)

@[simp] theorem transfer_ledger (r0 r1 : RegCode) (s : State) : (transfer r0 r1 s).ledger = s.ledger :=
  sameButRegisters_ledger (transfer_sameButRegisters r0 r1 s)

@[simp] theorem transfer_params (r0 r1 : RegCode) (s : State) : (transfer r0 r1 s).params = s.params :=
  sameButRegisters_params (transfer_sameButRegisters r0 r1 s)

/-- EXG of an invalid pair only charges its cost. -/
theorem exec_exg_invalid {r0 r1 : RegCode} (h : validPair r0 r1 = false) (s : State) :
    exec (.exg r0 r1) s = .next (account exgCycles s) := by
  rw [exec_exg, exchange_invalid h]

/-- TFR of an invalid pair only charges its cost. -/
theorem exec_tfr_invalid {r0 r1 : RegCode} (h : validPair r0 r1 = false) (s : State) :
    exec (.tfr r0 r1) s = .next (account tfrCycles s) := by
  rw [exec_tfr, transfer_invalid h]

/-- Settles O10: after the exchange each register reads as the other did, and the charge is 6. -/
theorem exgSwapsEveryValidPair : Obligations.ExgSwapsEveryValidPair := fun s =>
  ⟨fun p q => ⟨_, exec_exg (.wide p) (.wide q) s, by simp [exgCycles]⟩,
    fun p q => ⟨_, exec_exg (.narrow p) (.narrow q) s, by simp [exgCycles]⟩,
    fun _ _ h => exec_exg_invalid h s⟩

/-- Settles O11: after the transfer both registers read as the first did, and the charge is 4. -/
theorem tfrCopiesEveryValidPair : Obligations.TfrCopiesEveryValidPair := fun s =>
  ⟨fun p q => ⟨_, exec_tfr (.wide p) (.wide q) s, by simp [tfrCycles]⟩,
    fun p q => ⟨_, exec_tfr (.narrow p) (.narrow q) s, by simp [tfrCycles]⟩,
    fun _ _ h => exec_tfr_invalid h s⟩

/-- Settles O15: a pair that mixes widths is invalid in either order. -/
theorem mixedWidthsAreNeverConverted : Obligations.MixedWidthsAreNeverConverted :=
  ⟨by decide, fun p q s =>
    have hpq : validPair (.wide p) (.narrow q) = false := rfl
    have hqp : validPair (.narrow q) (.wide p) = false := rfl
    ⟨exec_exg_invalid hpq s, exec_exg_invalid hqp s, exec_tfr_invalid hpq s, exec_tfr_invalid hqp s⟩⟩

/-- Settles O19: a register gets the value it has. -/
theorem sameRegisterTwiceChangesNoRegister : Obligations.SameRegisterTwiceChangesNoRegister := by
  intro r s hr
  obtain ⟨w, hw⟩ := Option.ne_none_iff_exists'.mp hr
  refine ⟨(validPair_iff r r).mpr ⟨w, hw, hw⟩, ?_, ?_⟩
  · rw [exec_exg, exchange_self]
    rfl
  · rw [exec_tfr, transfer_self]
    rfl

theorem A_eq_highByte (s : State) : s.A = highByte (get16 .d s) := (highByte_concat s.A s.B).symm

theorem B_eq_lowByte (s : State) : s.B = lowByte (get16 .d s) := (lowByte_concat s.A s.B).symm

/-- Settles O17: A and B are the halves of D, so a write of D reaches both and a write of a half leaves the other. -/
theorem dAndItsHalvesAsOperands : Obligations.DAndItsHalvesAsOperands := by
  refine ⟨by decide, fun s => ?_⟩
  obtain ⟨-, -, -, writeA, writeB⟩ := dIsTheViewOfAAndB.2 s
  refine ⟨fun r => ⟨_, exec_tfr (.wide r) (.wide .d) s, ?_⟩, fun r => ⟨_, exec_exg (.wide .d) (.wide r) s, ?_⟩,
    fun r => ⟨_, exec_exg (.wide r) (.wide .d) s, ?_⟩, fun r => ⟨_, exec_tfr (.narrow r) (.narrow .a) s, ?_⟩,
    fun r => ⟨_, exec_tfr (.narrow r) (.narrow .b) s, ?_⟩, ⟨_, exec_exg (.narrow .a) (.narrow .b) s, rfl, fun h => ?_⟩,
    ⟨_, exec_exg (.narrow .b) (.narrow .a) s, rfl⟩⟩
  · simp [A_eq_highByte, B_eq_lowByte]
  · simp [A_eq_highByte, B_eq_lowByte]
  · simp [A_eq_highByte, B_eq_lowByte]
  · exact writeA (get8 r s)
  · exact writeB (get8 r s)
  · change concat s.B s.A = 0x3412
    rw [A_eq_highByte, B_eq_lowByte, h]
    decide

end Sys2Proof.Machine

namespace Sys2Proof.Machine

/-! What an instruction leaves (41_exchange_transfer.md R103 to R105): EXG and TFR by one effect, and its frame. -/

/-- What an instruction does to the registers, before its cost is charged. -/
def instrEffect : Instr → State → State
  | .exg r0 r1 => exchange r0 r1
  | .tfr r0 r1 => transfer r0 r1

theorem exec_eq (i : Instr) (s : State) : exec i s = .next (account (instrCost i) (instrEffect i s)) := by
  cases i <;> rfl

theorem instrEffect_sameButRegisters (i : Instr) (s : State) : sameButRegisters s (instrEffect i s) := by
  cases i with
  | exg r0 r1 => exact exchange_sameButRegisters r0 r1 s
  | tfr r0 r1 => exact transfer_sameButRegisters r0 r1 s

/-- An instruction leaves every register that its destinations do not touch. -/
theorem readReg_instrEffect {i : Instr} {r : Reg} (h : ∀ c ∈ i.destinations, c.touches r = false) (s : State) :
    readReg r (instrEffect i s) = readReg r s := by
  cases i with
  | exg r0 r1 =>
    obtain hv | ⟨a, b, rfl, rfl, hv⟩ := validPair_cases r0 r1
    · exact congrArg (readReg r) (exchange_invalid hv s)
    · simp only [Instr.destinations, hv, if_true, List.forall_mem_cons] at h
      obtain ⟨ha, hb, -⟩ := h
      rw [instrEffect, exchange_code hv, readReg_writeReg_of_not_touches hb, readReg_writeReg_of_not_touches ha]
  | tfr r0 r1 =>
    obtain hv | ⟨a, b, rfl, rfl, hv⟩ := validPair_cases r0 r1
    · exact congrArg (readReg r) (transfer_invalid hv s)
    · simp only [Instr.destinations, hv, if_true, List.forall_mem_cons] at h
      obtain ⟨hb, -⟩ := h
      rw [instrEffect, transfer_code hv, readReg_writeReg_of_not_touches hb]

/-- Only writing PC touches PC. -/
theorem RegCode.touches_pc {c : RegCode} (h : c ≠ .wide .pc) : c.touches (.wide .pc) = false := by
  rcases c with r | r | n
  · simpa using h
  · cases r <;> rfl
  · rfl

/-- An instruction that does not write CC leaves it. -/
theorem instrEffect_CC {i : Instr} (h : .narrow .cc ∉ i.destinations) (s : State) : (instrEffect i s).CC = s.CC :=
  BitVec.eq_of_toNat_eq <| readReg_instrEffect (r := .narrow .cc)
    (fun _ hc => RegCode.touches_cc (ne_of_mem_of_not_mem hc h)) s

/-- An instruction that does not write PC leaves it. -/
theorem instrEffect_PC {i : Instr} (h : .wide .pc ∉ i.destinations) (s : State) : (instrEffect i s).PC = s.PC :=
  BitVec.eq_of_toNat_eq <| readReg_instrEffect (r := .wide .pc)
    (fun _ hc => RegCode.touches_pc (ne_of_mem_of_not_mem hc h)) s

/-- An instruction writes only registers that it names. -/
theorem destinations_subset_codes (i : Instr) : i.destinations ⊆ i.codes := by
  cases i with
  | exg r0 r1 => cases h : validPair r0 r1 <;> simp [Instr.destinations, Instr.codes, h]
  | tfr r0 r1 => cases h : validPair r0 r1 <;> simp [Instr.destinations, Instr.codes, h]

/-- The frame of an instruction: untouched registers, the flags where CC is no destination, memory, and every other field
but LEDGER. -/
theorem exec_frame {i : Instr} {s t : State} (h : exec i s = .next t) :
    (∀ r : Reg, (∀ c ∈ i.destinations, c.touches r = false) → readReg r t = readReg r s) ∧
    (.narrow .cc ∉ i.destinations → ∀ f : Flag, t.flag f = s.flag f) ∧
    (∀ a : Nat, Memory.read t.mem a = Memory.read s.mem a) ∧
    t.bp = s.bp ∧ t.halted = s.halted ∧ t.stepPending = s.stepPending ∧ t.haltReq = s.haltReq ∧
    t.readBound = s.readBound ∧ t.writeBound = s.writeBound ∧ t.unmapped = s.unmapped ∧ t.params = s.params ∧
    t.draws = s.draws ∧ t.script = s.script ∧ t.trace = s.trace := by
  rw [exec_eq] at h
  cases h
  refine ⟨fun r hr => ?_, fun hcc f => ?_, ?_⟩
  · rw [readReg_account, readReg_instrEffect hr]
  · rw [State.flag, account_CC, instrEffect_CC hcc, State.flag]
  · rw [instrEffect_sameButRegisters i s]
    simp

/-- Settles O12: the frame of an instruction, for EXG. -/
theorem exgLeavesEverythingElse : Obligations.ExgLeavesEverythingElse := fun _ _ _ _ h => exec_frame h

/-- Settles O13: the frame of an instruction, for TFR. -/
theorem tfrLeavesEverythingElse : Obligations.TfrLeavesEverythingElse := fun _ _ _ _ h => exec_frame h

/-- Settles O18: CC is an 8-bit register like the others, and an instruction writes only what it names. -/
theorem ccMovesAsAWholeByte : Obligations.CcMovesAsAWholeByte := by
  refine ⟨rfl, fun s => ⟨fun r => exec_tfr (.narrow r) (.narrow .cc) s, fun r => ?_, fun r => ?_, fun r => ?_,
    fun i hi => ?_, fun hA _ => ?_⟩⟩
  · exact ⟨_, exec_tfr (.narrow .cc) (.narrow r) s, (get8_account ..).trans (get8_transfer_target .cc r s)⟩
  · exact ⟨_, exec_exg (.narrow .cc) (.narrow r) s, get8_exchange_left .cc r s,
      (get8_account ..).trans (get8_exchange_right .cc r s)⟩
  · exact ⟨_, exec_exg (.narrow r) (.narrow .cc) s, get8_exchange_right r .cc s,
      (get8_account ..).trans (get8_exchange_left r .cc s)⟩
  · exact ⟨_, exec_eq i s, instrEffect_CC (fun h => hi (destinations_subset_codes i h)) s⟩
  · exact ⟨_, exec_tfr (.narrow .a) (.narrow .cc) s, hA⟩

end Sys2Proof.Machine

namespace Sys2Proof.Machine

/-! A step that executes an encoded instruction (41_exchange_transfer.md R100, R105, R107, R111): the registers it leaves are
those of the instruction's effect from the state whose PC is the address of the next instruction. -/

theorem decode_encode {i : Instr} (hi : i.wf = true) : decode (encode i) = .ok (i, []) := by
  simpa using encodeThenDecodeReturnsInstruction i [] hi

@[simp] theorem finish_snapshot (signal : Bool) (s : State) :
    (returnResult (boundaryCheck (arrive signal s))).snapshot = s.snapshot :=
  (congrArg State.snapshot (finish_frame signal s)).trans rfl

/-- After the two fetches the registers are as before but PC, the address of the next instruction. -/
theorem afterFetch_takeEvent_snapshot (s : State) :
    s.takeEvent.afterFetch.snapshot = (set16 .pc (s.PC + 2) s).snapshot :=
  (congrArg State.snapshot (afterFetch_frame s.takeEvent)).trans rfl

/-- The registers read are the snapshot's. -/
theorem readReg_congr {s t : State} (h : s.snapshot = t.snapshot) (r : Reg) : readReg r s = readReg r t := by
  simp only [State.snapshot, Snapshot.mk.injEq] at h
  rcases r with r | r <;> cases r <;> simp [readReg, get16, get8, getD, h]

theorem get16_congr {s t : State} (h : s.snapshot = t.snapshot) (r : Reg16) : get16 r s = get16 r t :=
  BitVec.eq_of_toNat_eq (readReg_congr h (.wide r))

/-- The registers after a write depend on the registers before it only. -/
theorem writeReg_snapshot_congr {s t : State} (h : s.snapshot = t.snapshot) (r : Reg) (v : Nat) :
    (writeReg r v s).snapshot = (writeReg r v t).snapshot := by
  simp only [State.snapshot, Snapshot.mk.injEq] at h
  rcases r with r | r <;> cases r <;> simp [State.snapshot, writeReg, set16, set8, setD, h]

/-- The registers after an instruction depend on the registers before it only. -/
theorem instrEffect_snapshot_congr {s t : State} (h : s.snapshot = t.snapshot) (i : Instr) :
    (instrEffect i s).snapshot = (instrEffect i t).snapshot := by
  cases i with
  | exg r0 r1 =>
    obtain hv | ⟨a, b, rfl, rfl, hv⟩ := validPair_cases r0 r1
    · simpa [instrEffect, exchange_invalid hv] using h
    · simp only [instrEffect, exchange_code hv, readReg_congr h]
      exact writeReg_snapshot_congr (writeReg_snapshot_congr h a _) b _
  | tfr r0 r1 =>
    obtain hv | ⟨a, b, rfl, rfl, hv⟩ := validPair_cases r0 r1
    · simpa [instrEffect, transfer_invalid hv] using h
    · simp only [instrEffect, transfer_code hv, readReg_congr h]
      exact writeReg_snapshot_congr h b _

section step

variable {s : State} {signal : Bool} {i : Instr} (hev : s.nextEvent = .engineStep signal) (hx : s.executes = true)
  (hi : i.wf = true) (hcode : s.codeBytes = encode i)
include hev hx hi hcode

/-- A step that executes the bytes of an instruction runs it from the fetched state and checks the boundary. -/
theorem step_of_encode :
    step s = .next (returnResult (boundaryCheck (arrive signal
      (account (instrCost i) (instrEffect i s.takeEvent.afterFetch))))) := by
  obtain ⟨t, hexec, hstep⟩ := step_of_decode hev hx (hcode ▸ decode_encode hi)
  rw [exec_eq] at hexec
  cases hexec
  exact hstep

/-- The registers a step leaves: the instruction's effect, from PC at the next instruction. -/
theorem step_of_encode_snapshot :
    ∃ t, step s = .next t ∧ t.snapshot = (instrEffect i (set16 .pc (s.PC + 2) s)).snapshot := by
  refine ⟨_, step_of_encode hev hx hi hcode, ?_⟩
  rw [finish_snapshot]
  exact instrEffect_snapshot_congr (afterFetch_takeEvent_snapshot s) i

end step

/-- Settles O16: from the state with PC at the next instruction, the registers of the pair are read and written like any
others. -/
theorem pcOperandReadsNextAddressAndJumps : Obligations.PcOperandReadsNextAddressAndJumps := by
  intro s signal hev hx
  have hpc : get16 .pc (set16 .pc (s.PC + 2) s) = s.PC + 2 := get16_set16 ..
  refine ⟨fun r hr => ?_, fun i hi hcode hdest => ?_⟩
  · have hr' : get16 r (set16 .pc (s.PC + 2) s) = get16 r s := get16_set16_of_ne hr _ s
    refine ⟨fun hcode => ?_, fun hcode => ?_, fun hcode => ?_⟩
    · obtain ⟨t, hstep, hsnap⟩ := step_of_encode_snapshot hev hx rfl hcode
      exact ⟨t, hstep, (get16_congr hsnap .pc).trans ((get16_transfer_target r .pc _).trans hr')⟩
    · obtain ⟨t, hstep, hsnap⟩ := step_of_encode_snapshot hev hx rfl hcode
      exact ⟨t, hstep, (get16_congr hsnap r).trans ((get16_transfer_target .pc r _).trans hpc),
        (get16_congr hsnap .pc).trans ((get16_transfer_source .pc r _).trans hpc)⟩
    · have hexg : ∃ t, step s = .next t ∧
          t.snapshot = (exchange (.wide r) (.wide .pc) (set16 .pc (s.PC + 2) s)).snapshot := by
        rcases hcode with hcode | hcode
        · exact step_of_encode_snapshot hev hx rfl hcode
        · rw [exchange_comm]
          exact step_of_encode_snapshot hev hx rfl hcode
      obtain ⟨t, hstep, hsnap⟩ := hexg
      exact ⟨t, hstep, (get16_congr hsnap .pc).trans ((get16_exchange_right r .pc _).trans hr'),
        (get16_congr hsnap r).trans ((get16_exchange_left r .pc _).trans hpc)⟩
  · obtain ⟨t, hstep, hsnap⟩ := step_of_encode_snapshot hev hx hi hcode
    refine ⟨t, hstep, (get16_congr hsnap .pc).trans ?_⟩
    rcases hdest with hdest | rfl | rfl
    · exact instrEffect_PC hdest _
    · exact congrArg State.PC (transfer_self (.wide .pc) _)
    · exact congrArg State.PC (exchange_self (.wide .pc) _)

/-- What a handler reads from an invalid postbyte has no effect. -/
theorem instrEffect_invalid {pb : Byte} (h : validPair (decodeCode (highNibble pb)) (decodeCode (lowNibble pb)) = false)
    (hd : Handler) (s : State) : instrEffect (hd.instr pb) s = s := by
  cases hd with
  | exg => exact exchange_invalid h s
  | tfr => exact transfer_invalid h s

theorem instrCost_instr (hd : Handler) (pb : Byte) :
    instrCost (hd.instr pb) = if hd.opcode = opcExg then 6 else 4 := by
  cases hd <;> rfl

/-- The fetched state with a cost charged and no effect. -/
theorem account_afterFetch_takeEvent (n : Nat) (s : State) :
    account n s.takeEvent.afterFetch = { s with
      PC := s.PC + 2, ledger := (s.ledger + n) % 2 ^ s.params.ledgerBits, script := s.script.tail
      draws := s.takeEvent.afterFetch.draws, trace := s.takeEvent.afterFetch.trace } :=
  congrArg (account n) (afterFetch_frame s.takeEvent)

/-- Settles O14: the instruction has no effect, so the fetches and the charge are all that the step does before the Boundary
Check. -/
theorem invalidPairIsAChargedNoOp : Obligations.InvalidPairIsAChargedNoOp := by
  refine ⟨by decide, fun s signal opc pb hev hx hcode hopc hinv => ?_⟩
  obtain ⟨hd, rfl⟩ : ∃ hd : Handler, opc = hd.opcode := hopc.elim (fun h => ⟨.exg, h⟩) (fun h => ⟨.tfr, h⟩)
  have hstep := step_of_encode hev hx (instr_wf hd pb) (hcode.trans (encode_instr hd pb).symm)
  rw [instrEffect_invalid hinv, instrCost_instr, account_afterFetch_takeEvent] at hstep
  refine ⟨_, hstep, finish_snapshot signal _, by simp, congrArg Prod.fst (finish_memAndBp signal _),
    congrArg Prod.snd (finish_memAndBp signal _), ?_⟩
  rintro hbp hpending rfl
  obtain ⟨-, hr⟩ := (executes_iff s).mp hx
  rw [arrive, if_neg Bool.false_ne_true,
    boundaryCheck_of_not_haltCondition (by simpa [haltCondition, hpending, hr] using hbp)]
  rfl

/-- EXG of registers other than PC does not depend on PC and leaves it. -/
theorem exchange_writeReg_pc {r0 r1 : RegCode} (h0 : r0 ≠ .wide .pc) (h1 : r1 ≠ .wide .pc) (v : Nat) (s : State) :
    exchange r0 r1 (writeReg (.wide .pc) v s) = writeReg (.wide .pc) v (exchange r0 r1 s) := by
  obtain h | ⟨a, b, rfl, rfl, h⟩ := validPair_cases r0 r1
  · rw [exchange_invalid h, exchange_invalid h]
  · have ha : a.code.touches (.wide .pc) = false := RegCode.touches_pc h0
    have hb : b.code.touches (.wide .pc) = false := RegCode.touches_pc h1
    rw [exchange_code h, exchange_code h, readReg_writeReg_of_not_touches ((touches_comm _ a).trans ha),
      readReg_writeReg_of_not_touches ((touches_comm _ b).trans hb), writeReg_comm ha, writeReg_comm hb]

theorem exchange_set16_pc {r0 r1 : RegCode} (h0 : r0 ≠ .wide .pc) (h1 : r1 ≠ .wide .pc) (v : Word) (s : State) :
    exchange r0 r1 (set16 .pc v s) = set16 .pc v (exchange r0 r1 s) := by
  simpa [writeReg] using exchange_writeReg_pc h0 h1 v.toNat s

@[simp] theorem set16_pc_snapshot (v : Word) (s : State) : (set16 .pc v s).snapshot = { s.snapshot with PC := v } := rfl

/-- Settles O20: the second step exchanges from the registers the first one left, but for PC, on which EXG of other registers
does not depend. -/
theorem exgIsSymmetricAndTwiceRestores : Obligations.ExgIsSymmetricAndTwiceRestores := by
  refine ⟨fun r0 r1 s => ?_, ?_, fun r0 r1 s t signal signal' hi h0 h1 hev hx hcode hstep hev' hx' hcode' => ?_⟩
  · rw [exec_exg, exchange_comm, exec_exg]
  · exact ⟨.wide .x, .wide .y, { State.reset with X := 1 }, _, _, rfl, rfl, rfl,
      fun h => absurd (congrArg State.X h) (by decide)⟩
  · have hdest : .wide .pc ∉ (Instr.exg r0 r1).destinations := fun h => by
      simpa [Instr.codes, h0.symm, h1.symm] using destinations_subset_codes _ h
    obtain ⟨t', ht, hsnap⟩ := step_of_encode_snapshot hev hx hi hcode
    cases hstep.symm.trans ht
    obtain ⟨u, hu, husnap⟩ := step_of_encode_snapshot hev' hx' hi hcode'
    have hPC : t.PC = s.PC + 2 := (congrArg Snapshot.PC hsnap).trans (instrEffect_PC hdest _)
    have hfetched : (set16 .pc (t.PC + 2) t).snapshot =
        (set16 .pc (s.PC + 4) (exchange r0 r1 (set16 .pc (s.PC + 2) s))).snapshot := by
      rw [set16_pc_snapshot, hsnap, hPC, BitVec.add_assoc]
      rfl
    refine ⟨u, hu, ?_⟩
    calc u.snapshot = (instrEffect (.exg r0 r1) (set16 .pc (t.PC + 2) t)).snapshot := husnap
      _ = (exchange r0 r1 (set16 .pc (s.PC + 4) (exchange r0 r1 (set16 .pc (s.PC + 2) s)))).snapshot :=
        instrEffect_snapshot_congr hfetched (.exg r0 r1)
      _ = (set16 .pc (s.PC + 4) (set16 .pc (s.PC + 2) s)).snapshot := by
        rw [exchange_set16_pc h0 h1, exchange_exchange]
      _ = { s.snapshot with PC := s.PC + 4 } := rfl

end Sys2Proof.Machine

namespace Sys2Proof.Machine

/-! What a program can see (60_exceptions.md R147, R150): fetching, Decode and an instruction depend on the program view of
the state only, and the rest of the step leaves it. -/

theorem programView_eq_iff (s t : State) :
    s.programView = t.programView ↔ s.snapshot = t.snapshot ∧ s.mem = t.mem ∧ s.readBound = t.readBound ∧
      s.unmapped = t.unmapped ∧ s.draws = t.draws ∧ s.params = t.params := by
  simp [State.programView]

/-- A fetch gives the same byte and leaves the same view from two states that a program cannot tell apart. -/
theorem fetchByte_congr {s t : State} (h : s.programView = t.programView) :
    (fetchByte s).1 = (fetchByte t).1 ∧ (fetchByte s).2.programView = (fetchByte t).2.programView := by
  obtain ⟨hsnap, hmem, hbound, hmap, hdraws, hparams⟩ := (programView_eq_iff s t).mp h
  have hpc : s.PC = t.PC := congrArg Snapshot.PC hsnap
  obtain ⟨hbyte, hdrawn⟩ := busRead_congr hmem hbound hmap hdraws s.PC
  rw [fetchByte_fst, fetchByte_fst, ← hpc, fetchByte_frame, fetchByte_frame, programView_eq_iff]
  refine ⟨hbyte, ?_, hmem, hbound, hmap, hpc ▸ hdrawn, hparams⟩
  calc ({ s with PC := s.PC + 1 } : State).snapshot
    _ = { s.snapshot with PC := s.PC + 1 } := rfl
    _ = { t.snapshot with PC := t.PC + 1 } := by rw [hsnap, hpc]

theorem codeBytes_congr {s t : State} (h : s.programView = t.programView) : s.codeBytes = t.codeBytes := by
  obtain ⟨hfirst, hnext⟩ := fetchByte_congr h
  rw [State.codeBytes, State.codeBytes, hfirst, (fetchByte_congr hnext).1]

theorem afterFetch_programView_congr {s t : State} (h : s.programView = t.programView) :
    s.afterFetch.programView = t.afterFetch.programView :=
  (fetchByte_congr (fetchByte_congr h).2).2

/-- A change of registers only leaves the rest of the program view. -/
theorem sameButRegisters_programView {s t : State} (h : sameButRegisters s t) :
    t.programView = (t.snapshot, s.programView.2) :=
  (congrArg State.programView h).trans rfl

theorem instrEffect_programView_congr {s t : State} (h : s.programView = t.programView) (i : Instr) :
    (instrEffect i s).programView = (instrEffect i t).programView := by
  rw [sameButRegisters_programView (instrEffect_sameButRegisters i s),
    sameButRegisters_programView (instrEffect_sameButRegisters i t),
    instrEffect_snapshot_congr (congrArg Prod.fst h) i, h]

@[simp] theorem account_programView (n : Nat) (s : State) : (account n s).programView = s.programView := rfl

@[simp] theorem takeEvent_programView (s : State) : s.takeEvent.programView = s.programView := rfl

/-- After the instruction a step changes only what a program cannot see. -/
@[simp] theorem finish_programView (signal : Bool) (s : State) :
    (returnResult (boundaryCheck (arrive signal s))).programView = s.programView :=
  (congrArg State.programView (finish_frame signal s)).trans rfl

/-- A step that executes decodable bytes leaves the view that the instruction's effect leaves, and charges its cost. -/
theorem step_of_decode_programView {s : State} {signal : Bool} {i : Instr} (hev : s.nextEvent = .engineStep signal)
    (hx : s.executes = true) (hdec : decode s.codeBytes = .ok (i, [])) :
    ∃ t, step s = .next t ∧ t.programView = (instrEffect i s.takeEvent.afterFetch).programView ∧
      t.ledger = (s.ledger + instrCost i) % 2 ^ s.params.ledgerBits := by
  obtain ⟨u, hexec, hstep⟩ := step_of_decode hev hx hdec
  rw [exec_eq] at hexec
  cases hexec
  have hsame := instrEffect_sameButRegisters i s.takeEvent.afterFetch
  exact ⟨_, hstep, by simp, by simp [sameButRegisters_ledger hsame, sameButRegisters_params hsame]⟩

/-- Settles O27: both steps fetch the same bytes, so they are refused alike or run the same instruction, and its effect and
its cost depend on the program view only. -/
theorem programCannotSeeTheDebugger : Obligations.ProgramCannotSeeTheDebugger := by
  intro s s' signal signal' hview hev hx hev' hx'
  obtain ⟨hfirst, hnext⟩ := fetchByte_congr hview
  obtain ⟨hsecond, -⟩ := fetchByte_congr hnext
  cases hsel : select (fetchByte s).1 with
  | handler hd =>
    have hdec := decode_codeBytes hsel
    obtain ⟨t, hstep, htview, hledger⟩ := step_of_decode_programView hev hx hdec
    obtain ⟨t', hstep', htview', hledger'⟩ := step_of_decode_programView hev' hx' (codeBytes_congr hview ▸ hdec)
    have hparams : s.params = s'.params := congrArg (fun v => v.2.2.2.2.2) hview
    refine .inr ⟨t, t', hstep, hstep', ?_, fun h => ?_⟩
    · rw [htview, htview']
      exact instrEffect_programView_congr (afterFetch_programView_congr (by simpa using hview)) _
    · rw [hledger, hledger', h, hparams]
  | page =>
    refine .inl ⟨_, step_of_page hev hx hsel, ?_⟩
    rw [hfirst, hsecond]
    exact step_of_page hev' hx' (hfirst ▸ hsel)
  | outOfSlice =>
    refine .inl ⟨_, step_of_outOfSlice hev hx hsel, ?_⟩
    rw [hfirst]
    exact step_of_outOfSlice hev' hx' (hfirst ▸ hsel)

end Sys2Proof.Machine

namespace Sys2Proof.Machine

/-! Commands and the other host events (60_exceptions.md section 4, section 6): a command that is not honoured, a command
while Halted, and a halt request, each by one equation. -/

/-- What a command is answered where it is honoured (R134 to R142). -/
def Command.reply : Command → State → Reply
  | .singleStep, _     => .toRunning
  | .continueRun, _    => .toRunning
  | .readRegisters, s  => .registers s.snapshot
  | .readMemory a n, s => .bytes (readBytes n a s).1
  | .malformed, _      => .error
  | _, _               => .unchanged

/-- Without the debug subsystem every command is only answered with an error. -/
theorem runCommand_of_debugAbsent {s : State} (hp : s.params.debugPresent = false) (c : Command) :
    runCommand c s = s.observe (.reply .error) := by
  simp [runCommand, hp]

/-- While Running every command but `ReadRegisters` is only answered with an error. -/
theorem runCommand_of_running {s : State} (hh : s.halted = false) {c : Command} (hc : c ≠ .readRegisters) :
    runCommand c s = s.observe (.reply .error) := by
  cases hp : s.params.debugPresent with
  | false => exact runCommand_of_debugAbsent hp c
  | true =>
    cases c with
    | readRegisters => exact absurd rfl hc
    | _ => simp [runCommand, whileHalted, hp, hh]

theorem runCommand_readRegisters {s : State} (hp : s.params.debugPresent = true) :
    runCommand .readRegisters s = s.observe (.reply (.registers s.snapshot)) := by
  simp [runCommand, hp]

theorem runCommand_malformed (s : State) : runCommand .malformed s = s.observe (.reply .error) := by
  simp [runCommand]

/-- While Halted, with the debug subsystem present, every command takes its effect and is then answered. -/
theorem runCommand_of_halted {s : State} (hp : s.params.debugPresent = true) (hh : s.halted = true) (c : Command) :
    runCommand c s = (c.effect s).observe (.reply (c.reply s)) := by
  cases c <;> simp [runCommand, whileHalted, hp, hh, Command.effect, Command.reply]

section command

variable {s : State} {c : Command} (hev : s.nextEvent = .command c)
include hev

theorem step_of_command : step s = .next (runCommand c s.takeEvent) := step_of_event hev

theorem step_of_command_debugAbsent (hp : s.params.debugPresent = false) :
    step s = .next (s.takeEvent.observe (.reply .error)) := by
  rw [step_of_command hev, runCommand_of_debugAbsent (s := s.takeEvent) hp]

theorem step_of_command_running (hh : s.halted = false) (hc : c ≠ .readRegisters) :
    step s = .next (s.takeEvent.observe (.reply .error)) := by
  rw [step_of_command hev, runCommand_of_running (s := s.takeEvent) hh hc]

theorem step_of_command_halted (hp : s.params.debugPresent = true) (hh : s.halted = true) :
    step s = .next ((c.effect s.takeEvent).observe (.reply (c.reply s.takeEvent))) := by
  rw [step_of_command hev, runCommand_of_halted (s := s.takeEvent) hp hh]

end command

/-- Settles O33: while Running only `ReadRegisters` is honoured. -/
theorem commandsWhileRunningAreNotProcessed : Obligations.CommandsWhileRunningAreNotProcessed :=
  fun _ _ hev hc hh => step_of_command_running hev hh hc

/-- Settles O35: `ReadRegisters` asks for no controller state, and its answer is the snapshot. -/
theorem readRegistersReturnsTheSnapshot : Obligations.ReadRegistersReturnsTheSnapshot := by
  intro s hev hp
  rw [step_of_command hev, runCommand_readRegisters (s := s.takeEvent) hp]
  rfl

/-- Settles O40: a malformed command has the same answer with and without the debug subsystem. -/
theorem malformedCommandIsAnErrorOnly : Obligations.MalformedCommandIsAnErrorOnly := by
  intro s hev
  rw [step_of_command hev, runCommand_malformed]
  rfl

/-- Settles O43: each event is one operation on LEDGER, whatever the controller state. -/
theorem ledgerEventsReadAndClear : Obligations.LedgerEventsReadAndClear := fun _ =>
  ⟨fun hev => step_of_event hev, fun hev => step_of_event hev⟩

theorem haltSignal_of_debugAbsent {s : State} (hp : s.params.debugPresent = false) : haltSignal s = s := by
  simp [haltSignal, hp]

theorem haltSignal_of_running {s : State} (hp : s.params.debugPresent = true) (hh : s.halted = false) :
    haltSignal s = { s with haltReq := true } := by
  simp [haltSignal, hp, hh]

theorem haltSignal_of_halted {s : State} (hp : s.params.debugPresent = true) (hh : s.halted = true) :
    haltSignal s = s.observe (.reply .confirmedHalted) := by
  simp [haltSignal, hp, hh]

/-- Settles O32: the three branches of a halt request. -/
theorem haltSignalLatchesOrIsAbsorbed : Obligations.HaltSignalLatchesOrIsAbsorbed := by
  intro s hev
  rw [step_of_event hev, handleEvent]
  refine ⟨fun hp => ?_, fun hp hh => ?_, fun hp hh => ?_⟩
  · rw [haltSignal_of_debugAbsent (s := s.takeEvent) hp]
    rfl
  · rw [haltSignal_of_running (s := s.takeEvent) hp hh]
    rfl
  · rw [haltSignal_of_halted (s := s.takeEvent) hp hh]
    rfl

/-- Settles O52: the invariant leaves no halt condition, so Entry lets the engine go on and the Boundary Check does not halt;
a signal and a command meet the check for the debug subsystem. -/
theorem withoutDebuggerTheEngineAlwaysRuns : Obligations.WithoutDebuggerTheEngineAlwaysRuns := by
  intro s t hinv hp hstep
  obtain ⟨hbp, hh, hpending, hreq⟩ := hinv.absent hp
  have hx : s.executes = true := (executes_iff s).mpr ⟨hh, hreq⟩
  refine ⟨hx, fun signal hev => ?_, fun hev => ?_, fun c hev => ?_⟩
  · obtain ⟨hiff, -, -, -, hreport⟩ := boundaryCheckHaltsExactlyOnItsConditions s t signal hev hx hstep
    have hrun : t.halted = false := by simpa [hbp, hpending, hp] using hiff
    exact ⟨hrun, by simpa [hrun] using hreport⟩
  · rw [(haltSignalLatchesOrIsAbsorbed s hev).1 hp] at hstep
    cases hstep
    rfl
  · rw [step_of_command_debugAbsent hev hp] at hstep
    cases hstep
    rfl

end Sys2Proof.Machine

namespace Sys2Proof.Machine

/-! BP and a register written by a command (60_exceptions.md R135, R136, R138; 10_state.md R17, R18, R22). -/

/-- Adding a member to a canonical set leaves it. -/
theorem Breakpoints.insert_of_mem {bs : Breakpoints} (h : Breakpoints.wf bs) {a : Word} (ha : a ∈ bs) :
    Breakpoints.insert bs a = bs := by
  induction bs with
  | nil => cases ha
  | cons b bs ih =>
    obtain ⟨hbelow, htail⟩ := List.pairwise_cons.mp h
    rcases List.mem_cons.mp ha with rfl | ha
    · simp [Breakpoints.insert]
    · rw [Breakpoints.insert, if_pos (hbelow a ha), ih htail ha]

/-- Removing a non-member leaves the set. -/
theorem Breakpoints.remove_of_not_mem {bs : Breakpoints} {a : Word} (ha : a ∉ bs) : Breakpoints.remove bs a = bs :=
  List.filter_eq_self.mpr fun _ hb => bne_iff_ne.mpr (ne_of_mem_of_not_mem hb ha)

/-- Settles O34: both commands act on BP as on a set, and its canonical form makes equal sets equal lists. -/
theorem breakpointCommandsUpdateTheSet : Obligations.BreakpointCommandsUpdateTheSet := by
  intro s a hp hh hwf
  refine ⟨fun hev => ⟨_, step_of_command_halted hev hp hh, fun b => ?_, ?_, fun ha => ?_, rfl⟩,
    fun hev => ⟨_, step_of_command_halted hev hp hh, fun b => ?_, ?_, fun ha => ?_, rfl⟩⟩
  · exact Breakpoints.mem_insert
  · exact Breakpoints.insert_wf hwf a
  · exact Breakpoints.insert_of_mem hwf ha
  · exact Breakpoints.mem_remove.trans and_comm
  · exact Breakpoints.remove_wf hwf a
  · exact Breakpoints.remove_of_not_mem ha

/-- An observation and the event taken leave every register. -/
theorem readReg_observe (r : Reg) (o : Observation) (s : State) : readReg r (s.observe o) = readReg r s :=
  readReg_congr rfl r

theorem readReg_takeEvent (r : Reg) (s : State) : readReg r s.takeEvent = readReg r s := readReg_congr rfl r

/-- Settles O36: the command is one register write, which truncates and has its frame. -/
theorem writeRegisterWritesOneRegister : Obligations.WriteRegisterWritesOneRegister := by
  intro s r v hev hp hh
  refine ⟨_, step_of_command_halted hev hp hh, ?_, fun r' hr' => ?_, ?_⟩
  · exact (readReg_observe r _ _).trans (readReg_writeReg r v _)
  · rw [readReg_observe, Command.effect, readReg_writeReg_of_not_touches hr', readReg_takeEvent]
  · exact congrArg (State.observe (.reply .unchanged)) (writeReg_sameButRegisters r v s.takeEvent)

end Sys2Proof.Machine

namespace Sys2Proof.Machine

/-! Ranges of memory read and written by a command (60_exceptions.md R139, R140; 20_memory.md R49): the range from `a` is `a`
and then the range from `a + 1`, so its facts are proved by induction on its length. -/

theorem add_ofNat_succ (a : Word) (k : Nat) : a + BitVec.ofNat 16 (k + 1) = a + 1 + BitVec.ofNat 16 k := by
  rw [Nat.add_comm, BitVec.ofNat_add, BitVec.add_assoc]
  rfl

/-- The first address of a range of at most 65536 bytes is no later one's. -/
theorem toNat_succ_add_ofNat_ne (a : Word) {k : Nat} (hk : k < 65535) :
    (a + 1 + BitVec.ofNat 16 k).toNat ≠ a.toNat := by
  bv_omega

/-- Where a range is mapped, so is its first address. -/
theorem isUnmapped_first {s : State} {a : Word} {n : Nat}
    (h : ∀ k < n + 1, s.isUnmapped (a + BitVec.ofNat 16 k) = false) : s.isUnmapped a = false := by
  rw [← BitVec.add_zero (x := a)]
  exact h 0 (Nat.succ_pos n)

/-- Where a range is mapped, so is the range from the next address. -/
theorem isUnmapped_rest {s : State} {a : Word} {n : Nat}
    (h : ∀ k < n + 1, s.isUnmapped (a + BitVec.ofNat 16 k) = false) (k : Nat) (hk : k < n) :
    s.isUnmapped (a + 1 + BitVec.ofNat 16 k) = false := by
  rw [← add_ofNat_succ]
  exact h (k + 1) (Nat.succ_lt_succ hk)

/-- Reads of a mapped range give the bytes of memory in order, and are observed in that order. -/
theorem readBytes_mapped {s : State} (hb : s.readBound = true) (n : Nat) {a : Word}
    (hu : ∀ k < n, s.isUnmapped (a + BitVec.ofNat 16 k) = false) :
    readBytes n a s = ((List.range n).map fun k => Memory.read s.mem (a + BitVec.ofNat 16 k).toNat, { s with
      trace := ((List.range n).map fun k =>
        Observation.busRead (a + BitVec.ofNat 16 k) (Memory.read s.mem (a + BitVec.ofNat 16 k).toNat)).reverse
          ++ s.trace }) := by
  induction n generalizing a s with
  | zero => rfl
  | succ n ih =>
    simp only [readBytes, busRead_mapped hb (isUnmapped_first hu)]
    rw [ih (s := s.observe _) hb (isUnmapped_rest hu)]
    simp only [List.range_succ_eq_map, List.map_cons, List.map_map, Function.comp_def, Nat.succ_eq_add_one,
      add_ofNat_succ, BitVec.add_zero, List.reverse_cons, List.append_assoc, List.singleton_append, State.observe]

/-- Settles O37: the command is the range of reads, which leave memory as it was. -/
theorem readMemoryReturnsTheBytesInOrder : Obligations.ReadMemoryReturnsTheBytesInOrder := by
  intro s a n hev hp hh hb hu
  rw [step_of_command_halted hev hp hh, Command.effect, Command.reply, readBytes_mapped (s := s.takeEvent) hb n hu]
  rfl

theorem busWrite_writeBound (a : Word) (v : Byte) (s : State) : (busWrite a v s).writeBound = s.writeBound := by
  rw [busWrite_frame]

theorem busWrite_isUnmapped (a : Word) (v : Byte) (s : State) (b : Word) :
    (busWrite a v s).isUnmapped b = s.isUnmapped b := by
  rw [busWrite_frame]
  rfl

/-- A write on a bound port is observed once. -/
theorem busWrite_trace {s : State} (hb : s.writeBound = true) (a : Word) (v : Byte) :
    (busWrite a v s).trace = .busWrite a v :: s.trace := by
  unfold busWrite
  rw [if_pos hb]
  split <;> rfl

/-- Writes of a range on a bound port are observed in order. -/
theorem writeBytes_trace {s : State} (hb : s.writeBound = true) (bs : List Byte) (a : Word) :
    (writeBytes bs a s).trace =
      (bs.mapIdx fun k v => Observation.busWrite (a + BitVec.ofNat 16 k) v).reverse ++ s.trace := by
  induction bs generalizing a s with
  | nil => rfl
  | cons v bs ih =>
    rw [writeBytes, ih ((busWrite_writeBound a v s).trans hb), busWrite_trace hb]
    simp only [List.mapIdx_cons, add_ofNat_succ, BitVec.add_zero, List.reverse_cons, List.append_assoc,
      List.singleton_append]

/-- A write leaves the byte at every other address. -/
theorem read_busWrite_of_ne {s : State} (hm : Memory.wf s.mem) {a : Word} {b : Nat} (h : a.toNat ≠ b) (v : Byte) :
    Memory.read (busWrite a v s).mem b = Memory.read s.mem b := by
  unfold busWrite
  split
  · split
    · rfl
    · exact (Memory.read_write hm a.toNat v b).trans (if_neg h)
  · rfl

/-- Writes of a range leave the byte at every address outside it. -/
theorem read_writeBytes_of_ne {s : State} (hm : Memory.wf s.mem) {bs : List Byte} {a : Word} {b : Nat}
    (h : ∀ k < bs.length, (a + BitVec.ofNat 16 k).toNat ≠ b) :
    Memory.read (writeBytes bs a s).mem b = Memory.read s.mem b := by
  induction bs generalizing a s with
  | nil => rfl
  | cons v bs ih =>
    have hfirst : a.toNat ≠ b := by simpa using h 0 (Nat.succ_pos _)
    have hrest (k : Nat) (hk : k < bs.length) : (a + 1 + BitVec.ofNat 16 k).toNat ≠ b := by
      rw [← add_ofNat_succ]
      exact h (k + 1) (Nat.succ_lt_succ hk)
    exact (ih (busWrite_wf hm a v) hrest).trans (read_busWrite_of_ne hm hfirst v)

/-- After writes of a mapped range of at most 65536 bytes each byte is where it was written: no later write of the range
reaches its address again. -/
theorem read_writeBytes {s : State} (hb : s.writeBound = true) (hm : Memory.wf s.mem) {bs : List Byte} {a : Word}
    (hlen : bs.length ≤ 65536) (hu : ∀ k < bs.length, s.isUnmapped (a + BitVec.ofNat 16 k) = false) (k : Nat)
    (hk : k < bs.length) : Memory.read (writeBytes bs a s).mem (a + BitVec.ofNat 16 k).toNat = bs[k] := by
  induction bs generalizing a s k with
  | nil => cases hk
  | cons v bs ih =>
    rw [List.length_cons] at hlen hk hu
    have hm' := busWrite_wf hm a v
    cases k with
    | zero =>
      rw [BitVec.add_zero, writeBytes, read_writeBytes_of_ne hm' fun j hj => toNat_succ_add_ofNat_ne a (by omega),
        busWrite_mem_of_mapped hb (isUnmapped_first hu), Memory.read_write hm, if_pos rfl, List.getElem_cons_zero]
    | succ k =>
      rw [add_ofNat_succ, writeBytes, List.getElem_cons_succ]
      exact ih ((busWrite_writeBound a v s).trans hb) hm' (by omega)
        (fun j hj => (busWrite_isUnmapped a v s _).trans (isUnmapped_rest hu j hj)) k (by omega)

/-- Settles O38: the command is the range of writes, which change memory and the trace only. -/
theorem writeMemoryStoresTheBytes : Obligations.WriteMemoryStoresTheBytes := by
  intro s a bytes hev hp hh hb hm hlen hu
  refine ⟨_, step_of_writeMemory hev hp hh, fun k hk => ?_, fun b hne => ?_, ?_⟩
  · exact read_writeBytes (s := s.takeEvent) hb hm hlen hu k hk
  · exact read_writeBytes_of_ne (s := s.takeEvent) hm hne
  · have hframe := writeBytes_frame bytes a s.takeEvent
    rw [writeBytes_trace (s := s.takeEvent) hb] at hframe
    exact congrArg (State.observe (.reply .unchanged)) hframe

end Sys2Proof.Machine

namespace Sys2Proof.Machine

/-! Transitions between Running and Halted (60_exceptions.md R122): what each operation does to the controller's flag. -/

@[simp] theorem haltSignal_halted (s : State) : (haltSignal s).halted = s.halted :=
  (congrArg State.halted (haltSignal_frame s)).trans rfl

@[simp] theorem arrive_halted (signal : Bool) (s : State) : (arrive signal s).halted = s.halted :=
  (congrArg State.halted (arrive_frame signal s)).trans rfl

/-- An `EngineStep` that Entry ends leaves the controller Halted. -/
theorem engineStep_halted_of_not_executes {signal : Bool} {s t : State} (hx : s.executes = false)
    (h : engineStep signal s = .next t) : t.halted = true := by
  obtain ⟨-, rfl, hh⟩ | ⟨hx', -⟩ := engineStep_cases h
  · simpa using hh
  · simp [hx] at hx'

/-- A command never halts a Running controller. -/
theorem runCommand_halted_of_running {s : State} (hh : s.halted = false) (c : Command) :
    (runCommand c s).halted = false := by
  obtain ⟨r, he | ⟨-, hh', -⟩⟩ := runCommand_cases c s
  · rw [he]
    exact hh
  · simp [hh] at hh'

/-- `Continue` and `Step` are the commands that return from Halted. -/
theorem commandEffect_halted {s : State} (hh : s.halted = true) (c : Command) :
    (c.effect s).halted = false ↔ c = .continueRun ∨ c = .singleStep := by
  cases c with
  | readMemory a n =>
    rw [Command.effect, readBytes_frame]
    simp [hh]
  | writeMemory a bs =>
    rw [Command.effect, writeBytes_frame]
    simp [hh]
  | _ => simp [Command.effect, hh]

/-- A command makes a Halted controller Running when it is `Continue` or `Step` and the debug subsystem is present. -/
theorem runCommand_halted_of_halted {s : State} (hh : s.halted = true) (c : Command) :
    (runCommand c s).halted = false ↔ s.params.debugPresent = true ∧ (c = .continueRun ∨ c = .singleStep) := by
  cases hp : s.params.debugPresent with
  | false => simp [runCommand_of_debugAbsent hp, hh]
  | true => simpa [runCommand_of_halted hp hh] using commandEffect_halted hh c

/-- From Running: an `EngineStep` halts on a request latched at Entry or on a condition of its Boundary Check, and no other
event halts. -/
theorem step_halted_iff_of_running {s t : State} (h : step s = .next t) (hh : s.halted = false) :
    t.halted = true ↔ ∃ signal, s.nextEvent = .engineStep signal ∧
      (s.haltReq = true ∨ t.PC ∈ s.bp ∨ s.stepPending = true ∨ (signal = true ∧ s.params.debugPresent = true)) := by
  obtain ⟨signal, hev, he⟩ | ⟨hev, rfl⟩ | ⟨hev, rfl⟩ | ⟨c, hev, rfl⟩ | ⟨hev, rfl⟩ | ⟨hev, rfl⟩ := step_cases h
  · cases hr : s.haltReq with
    | false =>
      have hx : s.executes = true := (executes_iff s).mpr ⟨hh, hr⟩
      simpa [hev] using (boundaryCheckHaltsExactlyOnItsConditions s t signal hev hx h).1
    | true => simp [hev, engineStep_halted_of_not_executes (s := s.takeEvent) (by simp [State.executes, hr]) he]
  · simp [hev, coldReset]
  · simp [hev, hh]
  · simp [hev, runCommand_halted_of_running (s := s.takeEvent) hh]
  · simp [hev, ledgerRead, hh]
  · simp [hev, ledgerReset, hh]

/-- From Halted: `ColdReset`, and `Continue` or `Step` where the debug subsystem is present, and no other event resumes. -/
theorem step_running_iff_of_halted {s t : State} (h : step s = .next t) (hh : s.halted = true) :
    t.halted = false ↔ s.nextEvent = .coldReset ∨
      (s.params.debugPresent = true ∧ (s.nextEvent = .command .continueRun ∨ s.nextEvent = .command .singleStep)) := by
  obtain ⟨signal, hev, he⟩ | ⟨hev, rfl⟩ | ⟨hev, rfl⟩ | ⟨c, hev, rfl⟩ | ⟨hev, rfl⟩ | ⟨hev, rfl⟩ := step_cases h
  · simp [hev, engineStep_halted_of_not_executes (s := s.takeEvent) (by simp [State.executes, hh]) he]
  · simp [hev, coldReset]
  · simp [hev, hh]
  · simpa [hev] using runCommand_halted_of_halted (s := s.takeEvent) hh c
  · simp [hev, ledgerRead, hh]
  · simp [hev, ledgerReset, hh]

/-- Settles O28: the two directions of the table, and the flag `ColdReset` writes. -/
theorem debugTransitionsAreExactlyTheseOnes : Obligations.DebugTransitionsAreExactlyTheseOnes := by
  refine fun s t h => ⟨step_halted_iff_of_running h, step_running_iff_of_halted h, fun hev => ?_⟩
  rw [step_of_event hev] at h
  cases h
  rfl

end Sys2Proof.Machine

namespace Sys2Proof.Machine

/-! Resuming by `Continue` or `Step` (60_exceptions.md R130 to R132): the state it leads to, and the one instruction that the
next `EngineStep` runs from there. -/

/-- The state after an honoured `Continue` or `Step`: Running, the step latch as the command sets it, and answered. -/
def State.resumed (b : Bool) (s : State) : State := (goRunning b s.takeEvent).observe (.reply .toRunning)

theorem step_of_continueRun {s : State} (hev : s.nextEvent = .command .continueRun) (hp : s.params.debugPresent = true)
    (hh : s.halted = true) : step s = .next (s.resumed false) :=
  step_of_command_halted hev hp hh

theorem step_of_singleStep {s : State} (hev : s.nextEvent = .command .singleStep) (hp : s.params.debugPresent = true)
    (hh : s.halted = true) : step s = .next (s.resumed true) :=
  step_of_command_halted hev hp hh

/-- With no halt request latched, Entry lets the engine go on after a return from Halted. -/
theorem resumed_executes {s : State} (hr : s.haltReq = false) (b : Bool) : (s.resumed b).executes = true :=
  (executes_iff _).mpr ⟨rfl, hr⟩

/-- The engine resumes at the bytes where it halted. -/
theorem resumed_codeBytes (b : Bool) (s : State) : (s.resumed b).codeBytes = s.codeBytes := codeBytes_congr rfl

/-- A step that executes decodable bytes leaves the registers of the instruction and charges its cost. -/
theorem step_of_decode_exec {s : State} {signal : Bool} {i : Instr} (hev : s.nextEvent = .engineStep signal)
    (hx : s.executes = true) (hdec : decode s.codeBytes = .ok (i, [])) :
    ∃ t v, exec i s.takeEvent.afterFetch = .next v ∧ step s = .next t ∧ t.snapshot = v.snapshot ∧
      t.ledger = (s.ledger + instrCost i) % 2 ^ s.params.ledgerBits := by
  obtain ⟨v, hexec, hstep⟩ := step_of_decode hev hx hdec
  obtain ⟨t, hstep', -, hledger⟩ := step_of_decode_programView hev hx hdec
  cases hstep.symm.trans hstep'
  exact ⟨_, v, hexec, hstep, finish_snapshot signal v, hledger⟩

/-- Settles O29: `Continue` is the return from Halted without the step latch. -/
theorem continueResumes : Obligations.ContinueResumes := fun s hev hp =>
  ⟨fun hh => ⟨_, step_of_continueRun hev hp hh, rfl, fun hr => ⟨resumed_executes hr false, resumed_codeBytes false s⟩⟩,
    fun hh => step_of_command_running hev hh nofun⟩

/-- An instruction that executes with the step latch set leaves the controller Halted. -/
theorem step_halted_of_stepPending {s t : State} {signal : Bool} (hev : s.nextEvent = .engineStep signal)
    (hx : s.executes = true) (hpending : s.stepPending = true) (h : step s = .next t) : t.halted = true :=
  (boundaryCheckHaltsExactlyOnItsConditions s t signal hev hx h).1.mpr (.inr (.inl hpending))

theorem nextEvent_of_script {s : State} {e : Event} {rest : List Event} (h : s.script = e :: rest) : s.nextEvent = e := by
  rw [State.nextEvent, h, List.headD_cons]

/-- The event after a resuming command is next in the resumed state. -/
theorem resumed_nextEvent {s : State} {e e' : Event} {rest : List Event} (h : s.script = e :: e' :: rest) (b : Bool) :
    (s.resumed b).nextEvent = e' :=
  nextEvent_of_script (congrArg List.tail h)

/-- Settles O30: the resumed state has the step latch set, so the Boundary Check after the one instruction halts. -/
theorem stepCommandExecutesOneInstruction : Obligations.StepCommandExecutesOneInstruction := by
  refine ⟨fun s signal rest i hscript hp hh hr hdec => ?_, fun s hev _ hh => step_of_command_running hev hh nofun,
    fun s t signal hev hx hpending h => step_halted_of_stepPending hev hx hpending h⟩
  have hev := resumed_nextEvent hscript true
  have hx := resumed_executes hr true
  obtain ⟨u, v, hexec, hu, hsnap, hledger⟩ := step_of_decode_exec hev hx ((resumed_codeBytes true s).symm ▸ hdec)
  obtain ⟨-, hlatches, -, -, hreport⟩ := boundaryCheckHaltsExactlyOnItsConditions _ u signal hev hx hu
  have hhalted : u.halted = true := step_halted_of_stepPending hev hx rfl hu
  obtain ⟨hpending, hreq⟩ := hlatches hhalted
  refine ⟨_, u, v, step_of_singleStep (nextEvent_of_script hscript) hp hh, ?_, hexec, hu, hsnap, hledger, hhalted,
    hpending, hreq, by simpa [hhalted] using hreport⟩
  rw [show Event.engineStep signal :: rest = s.script.tail by rw [hscript, List.tail_cons]]
  rfl

/-- Settles O31: Entry does not look at BP, so the resumed state executes; the step latch is clear, which leaves the Boundary
Check BP and the signal. -/
theorem resumeAtABreakpointExecutesOnce : Obligations.ResumeAtABreakpointExecutesOnce := by
  intro s signal rest i hscript hp hh hr _ hdec
  have hev := resumed_nextEvent hscript false
  have hx := resumed_executes hr false
  obtain ⟨u, v, hexec, hu, hsnap, hledger⟩ := step_of_decode_exec hev hx ((resumed_codeBytes false s).symm ▸ hdec)
  obtain ⟨hhalted, -⟩ := boundaryCheckHaltsExactlyOnItsConditions _ u signal hev hx hu
  refine ⟨_, u, v, step_of_continueRun (nextEvent_of_script hscript) hp hh, rfl, hexec, hu, hsnap, hledger, ?_⟩
  simpa [State.resumed, hp] using hhalted

end Sys2Proof.Machine
